-- ==== Sys2Proof/Word.lean ====
section
/-! DEFINITION. The machine's words and their plain integer readings (R9 to R11, R19). -/

namespace Sys2Proof

/-- A 32-bit word: a general register, HI, LO, `pc`, a data address, an instruction word (R8, R19). -/
abbrev Word := BitVec 32

/-- A byte, the addressable unit of the data space (R47). -/
abbrev Byte := BitVec 8

/-- The number of a general register, 0 to 31 (R21, R75). -/
abbrev Reg := Fin 32

/-- `u(v)` of R10: the unsigned value. -/
abbrev u (v : Word) : Nat := v.toNat

/-- `s(v)` of R10: the two's-complement signed value. -/
abbrev sgn (v : Word) : Int := v.toInt

/-- `trunc_32` of R10 on an integer. -/
abbrev trunc32 (n : Int) : Word := BitVec.ofInt 32 n

/-- `trunc_64` of R10 on an integer. -/
abbrev trunc64 (n : Int) : BitVec 64 := BitVec.ofInt 64 n

end Sys2Proof
end

