-- ==== Sys2Proof/Syntax.lean ====
section
/-! DEFINITION. The machine instructions in decoded form (R75, R76): one constructor per row of `spec/opcode_table.json`. -/

namespace Sys2Proof

/-- A decoded machine instruction, operands in assembly order (R76). Immediates are the integers of R78(b): `Int` where
the field is sign-extended, `Nat` where it is not; a branch holds the offset from the next instruction (R78d, R88), a
jump the absolute index (R78e, R89). `Instr.wf` gives the ranges. -/
inductive Instr where
  -- arithmetic, R102 to R107
  | add (rd rs rt : Reg)
  | addu (rd rs rt : Reg)
  | sub (rd rs rt : Reg)
  | subu (rd rs rt : Reg)
  | addi (rt rs : Reg) (imm : Int)
  | addiu (rt rs : Reg) (imm : Int)
  -- multiply, divide, HI/LO, R114 to R119
  | mult (rs rt : Reg)
  | multu (rs rt : Reg)
  | div (rs rt : Reg)
  | divu (rs rt : Reg)
  | mfhi (rd : Reg)
  | mflo (rd : Reg)
  -- logic, R126 to R132
  | and (rd rs rt : Reg)
  | or (rd rs rt : Reg)
  | xor (rd rs rt : Reg)
  | nor (rd rs rt : Reg)
  | andi (rt rs : Reg) (imm : Nat)
  | ori (rt rs : Reg) (imm : Nat)
  | xori (rt rs : Reg) (imm : Nat)
  -- shifts, R135 to R137
  | sll (rd rt : Reg) (shamt : Nat)
  | srl (rd rt : Reg) (shamt : Nat)
  | sra (rd rt : Reg) (shamt : Nat)
  -- comparisons, R141 to R145
  | slt (rd rs rt : Reg)
  | sltu (rd rs rt : Reg)
  | slti (rt rs : Reg) (imm : Int)
  | sltiu (rt rs : Reg) (imm : Int)
  -- memory, R152 to R160
  | lw (rt : Reg) (offset : Int) (rs : Reg)
  | sw (rt : Reg) (offset : Int) (rs : Reg)
  | lb (rt : Reg) (offset : Int) (rs : Reg)
  | sb (rt : Reg) (offset : Int) (rs : Reg)
  | lh (rt : Reg) (offset : Int) (rs : Reg)
  | sh (rt : Reg) (offset : Int) (rs : Reg)
  | lui (rt : Reg) (imm : Nat)
  -- control transfer, R167 to R173
  | beq (rs rt : Reg) (offset : Int)
  | bne (rs rt : Reg) (offset : Int)
  | j (index : Nat)
  | jal (index : Nat)
  | jr (rs : Reg)
  deriving DecidableEq, Repr

end Sys2Proof
end

