-- ==== Sys2Proof/WellFormed.lean ====
section
/-! DEFINITION. Which decoded instructions have their operands in range, that is, have an encoding (R77, R78). -/

namespace Sys2Proof

/-- A sign-extended 16-bit operand: `-32768 <= v <= 32767` (R78b, R78d). -/
def fitsSigned16 (v : Int) : Bool := decide (-32768 ≤ v) && decide (v ≤ 32767)

/-- A zero-extended 16-bit operand: `0 <= v <= 65535` (R78b). -/
def fitsUnsigned16 (v : Nat) : Bool := decide (v ≤ 65535)

/-- A shift amount: `0 .. 31` (R78c). -/
def fitsShamt (v : Nat) : Bool := decide (v ≤ 31)

/-- A jump index: `0 <= T < 2^26` (R78e). -/
def fitsIndex26 (v : Nat) : Bool := decide (v < 2 ^ 26)

/-- The operands of the instruction are in range (R78). Register operands are by their type. -/
def Instr.wf : Instr → Bool
  | .add _ _ _ => true
  | .addu _ _ _ => true
  | .sub _ _ _ => true
  | .subu _ _ _ => true
  | .addi _ _ imm => fitsSigned16 imm
  | .addiu _ _ imm => fitsSigned16 imm
  | .mult _ _ => true
  | .multu _ _ => true
  | .div _ _ => true
  | .divu _ _ => true
  | .mfhi _ => true
  | .mflo _ => true
  | .and _ _ _ => true
  | .or _ _ _ => true
  | .xor _ _ _ => true
  | .nor _ _ _ => true
  | .andi _ _ imm => fitsUnsigned16 imm
  | .ori _ _ imm => fitsUnsigned16 imm
  | .xori _ _ imm => fitsUnsigned16 imm
  | .sll _ _ shamt => fitsShamt shamt
  | .srl _ _ shamt => fitsShamt shamt
  | .sra _ _ shamt => fitsShamt shamt
  | .slt _ _ _ => true
  | .sltu _ _ _ => true
  | .slti _ _ imm => fitsSigned16 imm
  | .sltiu _ _ imm => fitsSigned16 imm
  | .lw _ offset _ => fitsSigned16 offset
  | .sw _ offset _ => fitsSigned16 offset
  | .lb _ offset _ => fitsSigned16 offset
  | .sb _ offset _ => fitsSigned16 offset
  | .lh _ offset _ => fitsSigned16 offset
  | .sh _ offset _ => fitsSigned16 offset
  | .lui _ imm => fitsUnsigned16 imm
  | .beq _ _ offset => fitsSigned16 offset
  | .bne _ _ offset => fitsSigned16 offset
  | .j index => fitsIndex26 index
  | .jal index => fitsIndex26 index
  | .jr _ => true

end Sys2Proof
end

