-- ==== Sys2Proof/Decode.lean ====
section
/-! DEFINITION. Decoding and encoding: the fields of a word (R16, R80 to R82), the decoder (R90 to R93), the encoder, and
the opcode table as masks and matches (R92). -/

namespace Sys2Proof

/-! ### Fields of an instruction word (R16) -/

/-- `op = w[31:26]`. -/
def opOf (w : Word) : BitVec 6 := w.extractLsb' 26 6

/-- `rs = w[25:21]`. -/
def rsOf (w : Word) : Reg := (w.extractLsb' 21 5).toFin

/-- `rt = w[20:16]`. -/
def rtOf (w : Word) : Reg := (w.extractLsb' 16 5).toFin

/-- `rd = w[15:11]`. -/
def rdOf (w : Word) : Reg := (w.extractLsb' 11 5).toFin

/-- `shamt = w[10:6]`. -/
def shamtOf (w : Word) : BitVec 5 := w.extractLsb' 6 5

/-- `funct = w[5:0]`. -/
def functOf (w : Word) : BitVec 6 := w.extractLsb' 0 6

/-- `imm16 = w[15:0]`. -/
def imm16Of (w : Word) : BitVec 16 := w.extractLsb' 0 16

/-- `index26 = w[25:0]`. -/
def index26Of (w : Word) : BitVec 26 := w.extractLsb' 0 26

/-! ### Decode (R93) -/

/-- Why a word is no instruction (R95). Each is the fault `InvalidInstruction` when executed. -/
inductive DecodeError where
  /-- The primary opcode is not in R90. -/
  | reservedOpcode (op : BitVec 6)
  /-- `op = 0` and the function code is not in R91. -/
  | reservedFunct (funct : BitVec 6)
  /-- A field that R92 makes zero is not zero. -/
  | nonzeroField (mnemonic : String)
  deriving DecidableEq, Repr

/-- The instruction, provided its unused fields are zero (R92). -/
def requireZero (mnemonic : String) (zero : Bool) (i : Instr) : Except DecodeError Instr :=
  if zero then .ok i else .error (.nonzeroField mnemonic)

/-- `shamt` is unused. -/
def noShamt (w : Word) : Bool := shamtOf w = 0

/-- `rd`, `shamt` are unused. -/
def noRdShamt (w : Word) : Bool := rdOf w = 0 && noShamt w

/-- `rt`, `rd`, `shamt` are unused. -/
def noRtRdShamt (w : Word) : Bool := rtOf w = 0 && noRdShamt w

/-- `rs`, `rt`, `shamt` are unused. -/
def noRsRtShamt (w : Word) : Bool := rsOf w = 0 && rtOf w = 0 && noShamt w

/-- `rs` is unused. -/
def noRs (w : Word) : Bool := rsOf w = 0

/-- The R format, `op = 0`: the function codes of R91. -/
def decodeSpecial (w : Word) : Except DecodeError Instr :=
  match (functOf w).toNat with
  | 0x00 => requireZero "sll" (noRs w) (.sll (rdOf w) (rtOf w) (shamtOf w).toNat)
  | 0x02 => requireZero "srl" (noRs w) (.srl (rdOf w) (rtOf w) (shamtOf w).toNat)
  | 0x03 => requireZero "sra" (noRs w) (.sra (rdOf w) (rtOf w) (shamtOf w).toNat)
  | 0x08 => requireZero "jr" (noRtRdShamt w) (.jr (rsOf w))
  | 0x10 => requireZero "mfhi" (noRsRtShamt w) (.mfhi (rdOf w))
  | 0x12 => requireZero "mflo" (noRsRtShamt w) (.mflo (rdOf w))
  | 0x18 => requireZero "mult" (noRdShamt w) (.mult (rsOf w) (rtOf w))
  | 0x19 => requireZero "multu" (noRdShamt w) (.multu (rsOf w) (rtOf w))
  | 0x1A => requireZero "div" (noRdShamt w) (.div (rsOf w) (rtOf w))
  | 0x1B => requireZero "divu" (noRdShamt w) (.divu (rsOf w) (rtOf w))
  | 0x20 => requireZero "add" (noShamt w) (.add (rdOf w) (rsOf w) (rtOf w))
  | 0x21 => requireZero "addu" (noShamt w) (.addu (rdOf w) (rsOf w) (rtOf w))
  | 0x22 => requireZero "sub" (noShamt w) (.sub (rdOf w) (rsOf w) (rtOf w))
  | 0x23 => requireZero "subu" (noShamt w) (.subu (rdOf w) (rsOf w) (rtOf w))
  | 0x24 => requireZero "and" (noShamt w) (.and (rdOf w) (rsOf w) (rtOf w))
  | 0x25 => requireZero "or" (noShamt w) (.or (rdOf w) (rsOf w) (rtOf w))
  | 0x26 => requireZero "xor" (noShamt w) (.xor (rdOf w) (rsOf w) (rtOf w))
  | 0x27 => requireZero "nor" (noShamt w) (.nor (rdOf w) (rsOf w) (rtOf w))
  | 0x2A => requireZero "slt" (noShamt w) (.slt (rdOf w) (rsOf w) (rtOf w))
  | 0x2B => requireZero "sltu" (noShamt w) (.sltu (rdOf w) (rsOf w) (rtOf w))
  | _ => .error (.reservedFunct (functOf w))

/-- Decode, total on all 2^32 words (R77, R93). The immediates are the decoded integers of R78. -/
def decode (w : Word) : Except DecodeError Instr :=
  match (opOf w).toNat with
  | 0x00 => decodeSpecial w
  | 0x02 => .ok (.j (index26Of w).toNat)
  | 0x03 => .ok (.jal (index26Of w).toNat)
  | 0x04 => .ok (.beq (rsOf w) (rtOf w) (imm16Of w).toInt)
  | 0x05 => .ok (.bne (rsOf w) (rtOf w) (imm16Of w).toInt)
  | 0x08 => .ok (.addi (rtOf w) (rsOf w) (imm16Of w).toInt)
  | 0x09 => .ok (.addiu (rtOf w) (rsOf w) (imm16Of w).toInt)
  | 0x0A => .ok (.slti (rtOf w) (rsOf w) (imm16Of w).toInt)
  | 0x0B => .ok (.sltiu (rtOf w) (rsOf w) (imm16Of w).toInt)
  | 0x0C => .ok (.andi (rtOf w) (rsOf w) (imm16Of w).toNat)
  | 0x0D => .ok (.ori (rtOf w) (rsOf w) (imm16Of w).toNat)
  | 0x0E => .ok (.xori (rtOf w) (rsOf w) (imm16Of w).toNat)
  | 0x0F => requireZero "lui" (noRs w) (.lui (rtOf w) (imm16Of w).toNat)
  | 0x20 => .ok (.lb (rtOf w) (imm16Of w).toInt (rsOf w))
  | 0x21 => .ok (.lh (rtOf w) (imm16Of w).toInt (rsOf w))
  | 0x23 => .ok (.lw (rtOf w) (imm16Of w).toInt (rsOf w))
  | 0x28 => .ok (.sb (rtOf w) (imm16Of w).toInt (rsOf w))
  | 0x29 => .ok (.sh (rtOf w) (imm16Of w).toInt (rsOf w))
  | 0x2B => .ok (.sw (rtOf w) (imm16Of w).toInt (rsOf w))
  | _ => .error (.reservedOpcode (opOf w))

/-- The word an `nbits`-bit number stands for: bits above `nbits` are 0, and an instruction is one word (R79). -/
def tableWord (nbits w : Nat) : Word := BitVec.ofNat 32 (w % 2 ^ nbits)

/-- The decoder on a word given as a number, bit 0 its least significant bit, `nbits` bits long. -/
def decodeTableWord (nbits w : Nat) : Option Instr :=
  match decode (tableWord nbits w) with
  | .ok i => some i
  | .error _ => none

/-! ### Encode (R77, R78) -/

/-- The five bits of a register number. -/
def regBits (r : Reg) : BitVec 5 := BitVec.ofFin r

/-- R format with `op = 0` (R80). -/
def wordR (rs rt rd : Reg) (shamt : BitVec 5) (funct : BitVec 6) : Word :=
  0#6 ++ regBits rs ++ regBits rt ++ regBits rd ++ shamt ++ funct

/-- I format (R81). -/
def wordI (op : BitVec 6) (rs rt : Reg) (imm16 : BitVec 16) : Word :=
  op ++ regBits rs ++ regBits rt ++ imm16

/-- J format (R82). -/
def wordJ (op : BitVec 6) (index26 : BitVec 26) : Word := op ++ index26

/-- `trunc_16` of a signed operand (R78b). -/
def signedField (v : Int) : BitVec 16 := BitVec.ofInt 16 v

/-- `trunc_16` of an unsigned operand (R78b). -/
def unsignedField (v : Nat) : BitVec 16 := BitVec.ofNat 16 v

/-- A shift amount's field (R78c). -/
def shamtField (v : Nat) : BitVec 5 := BitVec.ofNat 5 v

/-- A jump index's field (R78e). -/
def indexField (v : Nat) : BitVec 26 := BitVec.ofNat 26 v

/-- The word of an instruction: its format (R83), its numbers (R90, R91), its unused fields zero (R92). -/
def encode : Instr → Word
  | .add rd rs rt => wordR rs rt rd 0 0x20
  | .addu rd rs rt => wordR rs rt rd 0 0x21
  | .sub rd rs rt => wordR rs rt rd 0 0x22
  | .subu rd rs rt => wordR rs rt rd 0 0x23
  | .addi rt rs imm => wordI 0x08 rs rt (signedField imm)
  | .addiu rt rs imm => wordI 0x09 rs rt (signedField imm)
  | .mult rs rt => wordR rs rt 0 0 0x18
  | .multu rs rt => wordR rs rt 0 0 0x19
  | .div rs rt => wordR rs rt 0 0 0x1A
  | .divu rs rt => wordR rs rt 0 0 0x1B
  | .mfhi rd => wordR 0 0 rd 0 0x10
  | .mflo rd => wordR 0 0 rd 0 0x12
  | .and rd rs rt => wordR rs rt rd 0 0x24
  | .or rd rs rt => wordR rs rt rd 0 0x25
  | .xor rd rs rt => wordR rs rt rd 0 0x26
  | .nor rd rs rt => wordR rs rt rd 0 0x27
  | .andi rt rs imm => wordI 0x0C rs rt (unsignedField imm)
  | .ori rt rs imm => wordI 0x0D rs rt (unsignedField imm)
  | .xori rt rs imm => wordI 0x0E rs rt (unsignedField imm)
  | .sll rd rt shamt => wordR 0 rt rd (shamtField shamt) 0x00
  | .srl rd rt shamt => wordR 0 rt rd (shamtField shamt) 0x02
  | .sra rd rt shamt => wordR 0 rt rd (shamtField shamt) 0x03
  | .slt rd rs rt => wordR rs rt rd 0 0x2A
  | .sltu rd rs rt => wordR rs rt rd 0 0x2B
  | .slti rt rs imm => wordI 0x0A rs rt (signedField imm)
  | .sltiu rt rs imm => wordI 0x0B rs rt (signedField imm)
  | .lw rt offset rs => wordI 0x23 rs rt (signedField offset)
  | .sw rt offset rs => wordI 0x2B rs rt (signedField offset)
  | .lb rt offset rs => wordI 0x20 rs rt (signedField offset)
  | .sb rt offset rs => wordI 0x28 rs rt (signedField offset)
  | .lh rt offset rs => wordI 0x21 rs rt (signedField offset)
  | .sh rt offset rs => wordI 0x29 rs rt (signedField offset)
  | .lui rt imm => wordI 0x0F 0 rt (unsignedField imm)
  | .beq rs rt offset => wordI 0x04 rs rt (signedField offset)
  | .bne rs rt offset => wordI 0x05 rs rt (signedField offset)
  | .j index => wordJ 0x02 (indexField index)
  | .jal index => wordJ 0x03 (indexField index)
  | .jr rs => wordR rs 0 0 0 0x08

/-! ### The opcode table (R92) -/

/-- A row of `spec/opcode_table.json`: a word is the row's instruction when `w & mask = match`. -/
structure Row where
  mnemonic : String
  pattern : Word
  mask : Word
  deriving DecidableEq, Repr

/-- `w & mask == match` (R92). -/
def Row.matches (r : Row) (w : Word) : Bool := w &&& r.mask = r.pattern

/-- The rows of the arithmetic, multiply and divide families. -/
def arithRows : List Row :=
  [⟨"add", 0x00000020, 0xFC0007FF⟩, ⟨"addu", 0x00000021, 0xFC0007FF⟩, ⟨"sub", 0x00000022, 0xFC0007FF⟩,
   ⟨"subu", 0x00000023, 0xFC0007FF⟩, ⟨"addi", 0x20000000, 0xFC000000⟩, ⟨"addiu", 0x24000000, 0xFC000000⟩,
   ⟨"mult", 0x00000018, 0xFC00FFFF⟩, ⟨"multu", 0x00000019, 0xFC00FFFF⟩, ⟨"div", 0x0000001A, 0xFC00FFFF⟩,
   ⟨"divu", 0x0000001B, 0xFC00FFFF⟩, ⟨"mfhi", 0x00000010, 0xFFFF07FF⟩, ⟨"mflo", 0x00000012, 0xFFFF07FF⟩]

/-- The rows of the logical, shift and comparison families. -/
def bitRows : List Row :=
  [⟨"and", 0x00000024, 0xFC0007FF⟩, ⟨"or", 0x00000025, 0xFC0007FF⟩, ⟨"xor", 0x00000026, 0xFC0007FF⟩,
   ⟨"nor", 0x00000027, 0xFC0007FF⟩, ⟨"andi", 0x30000000, 0xFC000000⟩, ⟨"ori", 0x34000000, 0xFC000000⟩,
   ⟨"xori", 0x38000000, 0xFC000000⟩, ⟨"sll", 0x00000000, 0xFFE0003F⟩, ⟨"srl", 0x00000002, 0xFFE0003F⟩,
   ⟨"sra", 0x00000003, 0xFFE0003F⟩, ⟨"slt", 0x0000002A, 0xFC0007FF⟩, ⟨"sltu", 0x0000002B, 0xFC0007FF⟩,
   ⟨"slti", 0x28000000, 0xFC000000⟩, ⟨"sltiu", 0x2C000000, 0xFC000000⟩]

/-- The rows of the memory and control families. -/
def memoryControlRows : List Row :=
  [⟨"lw", 0x8C000000, 0xFC000000⟩, ⟨"sw", 0xAC000000, 0xFC000000⟩, ⟨"lb", 0x80000000, 0xFC000000⟩,
   ⟨"sb", 0xA0000000, 0xFC000000⟩, ⟨"lh", 0x84000000, 0xFC000000⟩, ⟨"sh", 0xA4000000, 0xFC000000⟩,
   ⟨"lui", 0x3C000000, 0xFFE00000⟩, ⟨"beq", 0x10000000, 0xFC000000⟩, ⟨"bne", 0x14000000, 0xFC000000⟩,
   ⟨"j", 0x08000000, 0xFC000000⟩, ⟨"jal", 0x0C000000, 0xFC000000⟩, ⟨"jr", 0x00000008, 0xFC1FFFFF⟩]

/-- The opcode table, 38 rows. -/
def opcodeTable : List Row := arithRows ++ bitRows ++ memoryControlRows

/-- The mnemonic of an instruction (R2). -/
def Instr.mnemonic : Instr → String
  | .add _ _ _ => "add"
  | .addu _ _ _ => "addu"
  | .sub _ _ _ => "sub"
  | .subu _ _ _ => "subu"
  | .addi _ _ _ => "addi"
  | .addiu _ _ _ => "addiu"
  | .mult _ _ => "mult"
  | .multu _ _ => "multu"
  | .div _ _ => "div"
  | .divu _ _ => "divu"
  | .mfhi _ => "mfhi"
  | .mflo _ => "mflo"
  | .and _ _ _ => "and"
  | .or _ _ _ => "or"
  | .xor _ _ _ => "xor"
  | .nor _ _ _ => "nor"
  | .andi _ _ _ => "andi"
  | .ori _ _ _ => "ori"
  | .xori _ _ _ => "xori"
  | .sll _ _ _ => "sll"
  | .srl _ _ _ => "srl"
  | .sra _ _ _ => "sra"
  | .slt _ _ _ => "slt"
  | .sltu _ _ _ => "sltu"
  | .slti _ _ _ => "slti"
  | .sltiu _ _ _ => "sltiu"
  | .lw _ _ _ => "lw"
  | .sw _ _ _ => "sw"
  | .lb _ _ _ => "lb"
  | .sb _ _ _ => "sb"
  | .lh _ _ _ => "lh"
  | .sh _ _ _ => "sh"
  | .lui _ _ => "lui"
  | .beq _ _ _ => "beq"
  | .bne _ _ _ => "bne"
  | .j _ => "j"
  | .jal _ => "jal"
  | .jr _ => "jr"

end Sys2Proof
end

