-- ==== Sys2Proof/Config.lean ====
section
/-! DEFINITION. The parameters of the hardware (R8): what is fixed for one machine and what the spec leaves as an argument. -/

namespace Sys2Proof

/-- `ENDIAN`, the byte order of a halfword or word in data memory (R51, D6). -/
inductive Endian where
  | little
  | big
  deriving DecidableEq, Repr

/-- `FAULT_ORDER`, which fault a misaligned and out-of-range access reports (R55, D18). -/
inductive FaultOrder where
  | misalignedFirst
  | rangeFirst
  deriving DecidableEq, Repr

/-- One range of the MMIO window: `words` aligned words from byte address `base` up (R66, D21). -/
structure Region where
  base : Nat
  words : Nat
  deriving DecidableEq, Repr

/-- The first byte address after the range. -/
def Region.stop (r : Region) : Nat := r.base + 4 * r.words

/-- The parameters the model takes as arguments (R8; `92_eei_decisions.md`, parameters left OPEN).
The program and the initial data are arguments of a load, the launch registers are the host's to set. -/
structure Config where
  /-- `DMEM_SIZE`: the valid data addresses are those below it (R49). -/
  dmemSize : Nat
  /-- `ENDIAN` (R51). -/
  endian : Endian
  /-- `MMIO_WINDOW` (R66), as a list of ranges of words. -/
  mmioWindow : List Region
  /-- `DIV_OVF` (R112): `(LO, HI)` of the signed quotient -2^31 / -1. -/
  divOvf : Word × Word
  /-- `FAULT_ORDER` (R55). -/
  faultOrder : FaultOrder
  deriving DecidableEq, Repr

/-- The spec's default for every parameter (R8). -/
def Config.default : Config where
  dmemSize := 2 ^ 31
  endian := .little
  mmioWindow := []
  divOvf := (0x80000000#32, 0x00000000#32)
  faultOrder := .misalignedFirst

/-- Is byte address `a` in `MMIO_WINDOW`? (R46b) -/
def Config.inWindow (c : Config) (a : Nat) : Bool :=
  c.mmioWindow.any fun r => decide (r.base ≤ a) && decide (a < r.stop)

/-- The constraints R8 and D21 put on the parameters: `DMEM_SIZE` is a multiple of 4 from 4 to 2^31, the window is a
union of aligned words below it. -/
def Config.wf (c : Config) : Bool :=
  decide (c.dmemSize % 4 = 0) && decide (4 ≤ c.dmemSize) && decide (c.dmemSize ≤ 2 ^ 31) &&
    c.mmioWindow.all fun r => decide (r.base % 4 = 0) && decide (r.stop ≤ c.dmemSize)

end Sys2Proof
end

