-- ==== Sys2Proof/Machine/State.lean ====
section
/-! DEFINITION. The state of the machine (R20 to R44): the executor's, the loaded program, the debug controller's, and the
parameters of the run; the state after reset; why a step stops. -/

namespace Sys2Proof.Machine

/-- The four kinds of fault (R200). -/
inductive FaultKind where
  | invalidInstruction
  | divisionByZero
  | memoryOutOfRange
  | misalignedAccess
  deriving DecidableEq, Repr

/-- A raised fault with what it records (R15, R202 to R205). Only the kind is latched; the payload is stored nowhere. -/
inductive Raised where
  /-- `pc`, and the word where one was fetched (R202). -/
  | invalidInstruction (pc : Word) (w : Option Word)
  | divisionByZero
  | memoryOutOfRange (ea : Word)
  | misalignedAccess (ea : Word)
  deriving DecidableEq, Repr

/-- `STATUS`, the run status and fault latch (R36). -/
inductive Status where
  | ready
  | terminated
  | fault (kind : FaultKind)
  deriving DecidableEq, Repr

/-- The debug controller's state (R42, R223). -/
inductive Controller where
  | unloaded
  | loaded
  | running
  | paused
  | pausedAtBreakpoint
  | halted
  deriving DecidableEq, Repr

/-- The width of a data access: 1, 2 or 4 bytes (R47). -/
inductive Size where
  | byte
  | half
  | word
  deriving DecidableEq, Repr

/-- A byte memory: the bytes that are not 0, in strictly rising address order; every unlisted byte reads 0 (R38, R39). -/
abbrev Memory := List Host.Cell

/-- The machine's state (R20), with the loaded program (R40), the controller's state (R41, R42) and the parameters (R8). -/
structure State where
  /-- `x[0..31]` (R21); cell 0 is never read (R23). -/
  regs : Vector Word 32
  /-- `pc`, an instruction index (R27). -/
  pc : Word
  /-- `HI` (R32). -/
  hi : Word
  /-- `LO` (R32). -/
  lo : Word
  /-- `DMEM` (R38). -/
  dmem : Memory
  /-- `PERIPH`, the peripheral bank's raw bytes (R39). -/
  periph : Memory
  /-- `STATUS` (R36). -/
  status : Status
  /-- `LMA`, the last memory access (R37). -/
  lma : Option (Word × Size)
  /-- `IMEM`; its length is `IMEM_WORDS` (R40). -/
  imem : List Word
  /-- The breakpoint set, strictly rising (R41). -/
  breakpoints : List Nat
  /-- The controller state (R42). -/
  controller : Controller
  /-- The parameters (R8), which nothing changes. -/
  cfg : Config
  deriving DecidableEq, Repr

/-- Why the machine has no step. Both are raised by `step` alone, never by an instruction, and both are safe: the spec
defines no step there. The spec's own faults (R200) are not these: they are states, latched in `status`. -/
inductive Fault where
  /-- `STATUS` is not `Ready`: `exec_step()` is not defined (R208, R222). Raised by `step`. Safe. -/
  | halted
  /-- Nothing is loaded: no instruction can execute until a load succeeds (R44). Raised by `step`. Safe. -/
  | notLoaded
  deriving DecidableEq, Repr

/-- Why an instruction has no meaning. -/
inductive Refusal where
  /-- An arm of `exec` not modelled yet; no arm raises it now. Safe. -/
  | notModelled (mnemonic : String)
  deriving DecidableEq, Repr

/-- What a step or an instruction answers. -/
abbrev Result := Host.Outcome State Fault Refusal

/-- The state with everything `reset()` clears cleared (R43, R240), for given parameters and breakpoint set (a load keeps
the set, R241). -/
def State.cleared (cfg : Config) (breakpoints : List Nat) : State where
  regs := Vector.replicate 32 0
  pc := 0
  hi := 0
  lo := 0
  dmem := []
  periph := []
  status := .ready
  lma := none
  imem := []
  breakpoints := breakpoints
  controller := .unloaded
  cfg := cfg

/-- The machine right after reset (R43, R240, R242), with the default parameters (R8). -/
def State.reset : State := State.cleared Config.default []

end Sys2Proof.Machine
end

