-- ==== Sys2Proof/Machine/Ops.lean ====
section
/-! DEFINITION. The operations over registers and memory (R13, R14, R37 to R39, R49 to R56), taking a fault (R207) and
terminating (R210). There is no return from a fault (R208). -/

namespace Sys2Proof.Machine

/-! ### Registers (R13, R23, R29) -/

/-- `x[r]`: register 0 reads as zero (R23). -/
def State.readReg (s : State) (r : Reg) : Word := if r = 0 then 0 else s.regs[r]

/-- `x[r] <- v`: a write to register 0 is dropped (R23). -/
def State.writeReg (s : State) (r : Reg) (v : Word) : State :=
  if r = 0 then s else { s with regs := s.regs.set r v }

/-- `pc <- t` (R13). -/
def State.setPc (s : State) (t : Word) : State := { s with pc := t }

/-- The index after `pc`: `trunc_32(u(pc) + 1)` (R28, R30). -/
def State.nextPc (s : State) : Word := trunc32 (u s.pc + 1)

/-- `pc <- pc + 1` (R13). -/
def State.advance (s : State) : State := s.setPc s.nextPc

/-- `HI <- h`, `LO <- l` (R113). -/
def State.setHiLo (s : State) (h l : Word) : State := { s with hi := h, lo := l }

/-! ### Stopping (R207, R210) -/

/-- The kind a raised fault latches. -/
def Raised.kind : Raised → FaultKind
  | .invalidInstruction _ _ => .invalidInstruction
  | .divisionByZero => .divisionByZero
  | .memoryOutOfRange _ => .memoryOutOfRange
  | .misalignedAccess _ => .misalignedAccess

/-- Fault entry (R207): `STATUS <- Fault(kind)`, the controller goes to `Halted`, nothing else changes. -/
def State.takeFault (s : State) (r : Raised) : State :=
  { s with status := .fault r.kind, controller := .halted }

/-- Termination (R210): `STATUS <- Terminated`, the controller goes to `Halted`, nothing else changes. -/
def State.terminate (s : State) : State :=
  { s with status := .terminated, controller := .halted }

/-! ### Byte memories -/

/-- The byte at an address; 0 where none is listed (R38, R39). -/
def Memory.read : Memory → Nat → Byte
  | [], _ => 0
  | (k, v) :: m, a => if a = k then v else Memory.read m a

/-- Put a cell at the head, unless it holds the unlisted value. -/
def Memory.push (a : Nat) (b : Byte) (m : Memory) : Memory := if b = 0 then m else (a, b) :: m

/-- Write a byte, keeping the canonical form. -/
def Memory.write : Memory → Nat → Byte → Memory
  | [], a, b => Memory.push a b []
  | (k, v) :: m, a, b =>
    if a < k then Memory.push a b ((k, v) :: m)
    else if a = k then Memory.push a b m
    else (k, v) :: Memory.write m a b

/-- Every address of the memory is above `a`. -/
def Memory.above (a : Nat) (m : Memory) : Bool := m.all fun c => decide (a < c.1)

/-- The canonical form: addresses strictly rising, no entry 0. -/
def Memory.wf : Memory → Bool
  | [] => true
  | (k, v) :: m => decide (v ≠ 0) && Memory.above k m && Memory.wf m

/-! ### The data space (R46b, R52, R53) -/

/-- The number of bytes of an access (R47). -/
def Size.bytes : Size → Nat
  | .byte => 1
  | .half => 2
  | .word => 4

/-- Must an access of this size at this address fault for alignment? (R54) -/
def misaligned (ea : Word) : Size → Bool
  | .byte => false
  | .half => ea.extractLsb' 0 1 ≠ 0
  | .word => ea.extractLsb' 0 2 ≠ 0

/-- `u(addr) + n > DMEM_SIZE` (R49). -/
def outOfRange (c : Config) (ea : Word) (n : Size) : Bool := decide (u ea + n.bytes > c.dmemSize)

/-- The checks of a data access in the order of `FAULT_ORDER` (R52, R53, R55). -/
def checkAccess (c : Config) (ea : Word) (n : Size) : Option Raised :=
  match c.faultOrder with
  | .misalignedFirst =>
    if misaligned ea n then some (.misalignedAccess ea)
    else if outOfRange c ea n then some (.memoryOutOfRange ea)
    else none
  | .rangeFirst =>
    if outOfRange c ea n then some (.memoryOutOfRange ea)
    else if misaligned ea n then some (.misalignedAccess ea)
    else none

/-- The byte a load finds at a data address: `PERIPH` inside the window, `DMEM` outside (R52, R66). -/
def State.dataByte (s : State) (a : Nat) : Byte :=
  if s.cfg.inWindow a then s.periph.read a else s.dmem.read a

/-- Store one byte, routed the same way (R53, R67). -/
def State.setDataByte (s : State) (a : Nat) (b : Byte) : State :=
  if s.cfg.inWindow a then { s with periph := s.periph.write a b } else { s with dmem := s.dmem.write a b }

/-- Store bytes at rising addresses. -/
def State.setDataBytes (s : State) (a : Nat) : List Byte → State
  | [] => s
  | b :: bs => (s.setDataByte a b).setDataBytes (a + 1) bs

/-- The `n` bytes from an address up. -/
def State.dataBytes (s : State) (a : Nat) : Nat → List Byte
  | 0 => []
  | n + 1 => s.dataByte a :: s.dataBytes (a + 1) n

/-- The value of bytes given least significant first. -/
def joinBytes : List Byte → Nat
  | [] => 0
  | b :: bs => b.toNat + 256 * joinBytes bs

/-- The `n` low bytes of a word, least significant first: `v[8k+7:8k]` (R53). -/
def splitBytes (v : Word) : Nat → List Byte
  | 0 => []
  | n + 1 => v.extractLsb' 0 8 :: splitBytes (v >>> 8) n

/-- Bytes at rising addresses, read least significant first, or the other way round (R51). -/
def inOrder (e : Endian) (bs : List Byte) : List Byte :=
  match e with
  | .little => bs
  | .big => bs.reverse

/-- `LMA <- (addr, n)` (R37). -/
def State.noteAccess (s : State) (ea : Word) (n : Size) : State := { s with lma := some (ea, n) }

/-- `MemRead(addr, n)` (R52): the value read and the state after, or the fault raised. -/
def State.memRead (s : State) (ea : Word) (n : Size) : Except Raised (Nat × State) :=
  match checkAccess s.cfg ea n with
  | some r => .error r
  | none => .ok (joinBytes (inOrder s.cfg.endian (s.dataBytes (u ea) n.bytes)), s.noteAccess ea n)

/-- `MemWrite(addr, n, v)` of the low `8n` bits of `v` (R53): the state after, or the fault raised. -/
def State.memWrite (s : State) (ea : Word) (n : Size) (v : Word) : Except Raised State :=
  match checkAccess s.cfg ea n with
  | some r => .error r
  | none => .ok ((s.setDataBytes (u ea) (inOrder s.cfg.endian (splitBytes v n.bytes))).noteAccess ea n)

/-! ### The shapes an instruction's effect takes -/

/-- Write one register and go on: `x[r] <- v; pc <- pc + 1`. -/
def State.finish (s : State) (r : Reg) (v : Word) : Result := .next ((s.writeReg r v).advance)

/-- Write HI and LO and go on. -/
def State.finishHiLo (s : State) (h l : Word) : Result := .next ((s.setHiLo h l).advance)

/-- Raise a fault: the instruction has no effect but fault entry (R15, R207). -/
def State.raise (s : State) (r : Raised) : Result := .next (s.takeFault r)

end Sys2Proof.Machine
end

