-- ==== Sys2Proof/Machine/Operands.lean ====
section
/-! DEFINITION. The operand forms (R84 to R89) and the effective address (R61, R150). -/

namespace Sys2Proof.Machine

/-- A sign-extended immediate: `sext_32(imm16)` (R84). -/
def sextImm (v : Int) : Word := (signedField v).signExtend 32

/-- A zero-extended immediate: `zext_32(imm16)` (R85). -/
def zextImm (v : Nat) : Word := (unsignedField v).setWidth 32

/-- The operand of `lui`: the immediate in bits 31:16, zeros in bits 15:0 (R86). -/
def upperImm (v : Nat) : Word := unsignedField v ++ 0#16

/-- A shift amount, 0 to 31 (R87). -/
def shiftAmount (v : Nat) : Nat := (shamtField v).toNat

/-- `ea = trunc_32(u(x[rs]) + u(sext_32(imm16)))` (R61, R150). -/
def State.effAddr (s : State) (rs : Reg) (offset : Int) : Word :=
  trunc32 (u (s.readReg rs) + u (sextImm offset))

/-- `target = trunc_32(u(pc) + 1 + s(imm16))` (R88). -/
def State.branchTarget (s : State) (offset : Int) : Word :=
  trunc32 (u s.pc + 1 + (signedField offset).toInt)

/-- `target = zext_32(index26)` (R89). -/
def jumpTarget (index : Nat) : Word := (indexField index).setWidth 32

end Sys2Proof.Machine
end

