-- ==== Sys2Proof/Machine/Arith.lean ====
section
/-! DEFINITION. Addition and subtraction (R100 to R107). -/

namespace Sys2Proof.Machine

/-- The sum modulo 2^32; no overflow is detected (R100). -/
def sum32 (a b : Word) : Word := trunc32 (u a + u b)

/-- The difference modulo 2^32 (R100). -/
def diff32 (a b : Word) : Word := trunc32 (u a - u b)

/-- `add rd, rs, rt` (R102). -/
def execAdd (rd rs rt : Reg) (s : State) : Result := s.finish rd (sum32 (s.readReg rs) (s.readReg rt))

/-- `addu rd, rs, rt` (R103). -/
def execAddu (rd rs rt : Reg) (s : State) : Result := s.finish rd (sum32 (s.readReg rs) (s.readReg rt))

/-- `sub rd, rs, rt` (R104). -/
def execSub (rd rs rt : Reg) (s : State) : Result := s.finish rd (diff32 (s.readReg rs) (s.readReg rt))

/-- `subu rd, rs, rt` (R105). -/
def execSubu (rd rs rt : Reg) (s : State) : Result := s.finish rd (diff32 (s.readReg rs) (s.readReg rt))

/-- `addi rt, rs, imm` (R106). -/
def execAddi (rt rs : Reg) (imm : Int) (s : State) : Result := s.finish rt (sum32 (s.readReg rs) (sextImm imm))

/-- `addiu rt, rs, imm` (R107). -/
def execAddiu (rt rs : Reg) (imm : Int) (s : State) : Result := s.finish rt (sum32 (s.readReg rs) (sextImm imm))

end Sys2Proof.Machine
end

