-- ==== Sys2Proof/Machine/Flags.lean ====
section
/-! DEFINITION. Conditions. The machine has no flags (R34): a comparison's outcome is a register value (R140) or a branch
taken (R167, R168). -/

namespace Sys2Proof.Machine

/-- `s(a) < s(b)` (R140). -/
def lessSigned (a b : Word) : Bool := decide (sgn a < sgn b)

/-- `u(a) < u(b)` (R140). -/
def lessUnsigned (a b : Word) : Bool := decide (u a < u b)

/-- The two 32-bit vectors are equal, bit for bit (R167). -/
def equalBits (a b : Word) : Bool := decide (a = b)

/-- What a comparison writes: `0x00000001` or `0x00000000` (R140). -/
def condWord (c : Bool) : Word := if c then 0x00000001 else 0x00000000

end Sys2Proof.Machine
end

