-- ==== Sys2Proof/Machine/Compare.lean ====
section
/-! DEFINITION. Set on less than (R140 to R145). -/

namespace Sys2Proof.Machine

/-- `slt rd, rs, rt` (R141). -/
def execSlt (rd rs rt : Reg) (s : State) : Result :=
  s.finish rd (condWord (lessSigned (s.readReg rs) (s.readReg rt)))

/-- `sltu rd, rs, rt` (R142). -/
def execSltu (rd rs rt : Reg) (s : State) : Result :=
  s.finish rd (condWord (lessUnsigned (s.readReg rs) (s.readReg rt)))

/-- `slti rt, rs, imm` (R144). -/
def execSlti (rt rs : Reg) (imm : Int) (s : State) : Result :=
  s.finish rt (condWord (lessSigned (s.readReg rs) (sextImm imm)))

/-- `sltiu rt, rs, imm`: sign-extend, then compare unsigned (R145). -/
def execSltiu (rt rs : Reg) (imm : Int) (s : State) : Result :=
  s.finish rt (condWord (lessUnsigned (s.readReg rs) (sextImm imm)))

end Sys2Proof.Machine
end

