-- ==== Sys2Proof/Machine/Control.lean ====
section
/-! DEFINITION. Branches and jumps, without a delay slot (R165 to R174). -/

namespace Sys2Proof.Machine

/-- A conditional branch: to the target when taken, else to the next index (R29). -/
def State.branch (s : State) (taken : Bool) (offset : Int) : Result :=
  .next (if taken then s.setPc (s.branchTarget offset) else s.advance)

/-- `beq rs, rt, label` (R167). -/
def execBeq (rs rt : Reg) (offset : Int) (s : State) : Result :=
  s.branch (equalBits (s.readReg rs) (s.readReg rt)) offset

/-- `bne rs, rt, label` (R168). -/
def execBne (rs rt : Reg) (offset : Int) (s : State) : Result :=
  s.branch (!equalBits (s.readReg rs) (s.readReg rt)) offset

/-- `j label` (R169). -/
def execJ (index : Nat) (s : State) : Result := .next (s.setPc (jumpTarget index))

/-- `jal label`: link `pc + 1` in register 31 (R171, R172). -/
def execJal (index : Nat) (s : State) : Result := .next ((s.writeReg 31 s.nextPc).setPc (jumpTarget index))

/-- `jr rs` (R173). -/
def execJr (rs : Reg) (s : State) : Result := .next (s.setPc (s.readReg rs))

end Sys2Proof.Machine
end

