-- ==== Sys2Proof/Machine/LoadStore.lean ====
section
/-! DEFINITION. Loads, stores and `lui` (R150 to R160). -/

namespace Sys2Proof.Machine

/-- A load (R151): read at the effective address, extend, write `rt`, advance; a fault leaves everything as it was. -/
def State.load (s : State) (n : Size) (extend : Nat → Word) (rt : Reg) (ea : Word) : Result :=
  match s.memRead ea n with
  | .error r => s.raise r
  | .ok (v, s') => s'.finish rt (extend v)

/-- A store (R151): write at the effective address, advance; a fault leaves everything as it was. -/
def State.store (s : State) (n : Size) (v : Word) (ea : Word) : Result :=
  match s.memWrite ea n v with
  | .error r => s.raise r
  | .ok s' => .next s'.advance

/-- A loaded word, whole (R58). -/
def extendWord (v : Nat) : Word := BitVec.ofNat 32 v

/-- `sext_32` of a loaded byte (R58). -/
def extendByte (v : Nat) : Word := (BitVec.ofNat 8 v).signExtend 32

/-- `sext_32` of a loaded halfword (R58). -/
def extendHalf (v : Nat) : Word := (BitVec.ofNat 16 v).signExtend 32

/-- `lw rt, offset(rs)` (R152). -/
def execLw (rt : Reg) (offset : Int) (rs : Reg) (s : State) : Result :=
  s.load .word extendWord rt (s.effAddr rs offset)

/-- `sw rt, offset(rs)` (R153). -/
def execSw (rt : Reg) (offset : Int) (rs : Reg) (s : State) : Result :=
  s.store .word (s.readReg rt) (s.effAddr rs offset)

/-- `lb rt, offset(rs)` (R154). -/
def execLb (rt : Reg) (offset : Int) (rs : Reg) (s : State) : Result :=
  s.load .byte extendByte rt (s.effAddr rs offset)

/-- `sb rt, offset(rs)`: the low byte of `rt` (R155). -/
def execSb (rt : Reg) (offset : Int) (rs : Reg) (s : State) : Result :=
  s.store .byte (s.readReg rt) (s.effAddr rs offset)

/-- `lh rt, offset(rs)` (R156). -/
def execLh (rt : Reg) (offset : Int) (rs : Reg) (s : State) : Result :=
  s.load .half extendHalf rt (s.effAddr rs offset)

/-- `sh rt, offset(rs)`: the low halfword of `rt` (R157). -/
def execSh (rt : Reg) (offset : Int) (rs : Reg) (s : State) : Result :=
  s.store .half (s.readReg rt) (s.effAddr rs offset)

/-- `lui rt, imm`: no memory access (R160). -/
def execLui (rt : Reg) (imm : Nat) (s : State) : Result := s.finish rt (upperImm imm)

end Sys2Proof.Machine
end

