-- ==== Sys2Proof/Machine/Logic.lean ====
section
/-! DEFINITION. Bitwise logic (R125 to R132). -/

namespace Sys2Proof.Machine

/-- `and rd, rs, rt` (R126). -/
def execAnd (rd rs rt : Reg) (s : State) : Result := s.finish rd (s.readReg rs &&& s.readReg rt)

/-- `or rd, rs, rt` (R127). -/
def execOr (rd rs rt : Reg) (s : State) : Result := s.finish rd (s.readReg rs ||| s.readReg rt)

/-- `xor rd, rs, rt` (R128). -/
def execXor (rd rs rt : Reg) (s : State) : Result := s.finish rd (s.readReg rs ^^^ s.readReg rt)

/-- `nor rd, rs, rt` (R129). -/
def execNor (rd rs rt : Reg) (s : State) : Result := s.finish rd (~~~(s.readReg rs ||| s.readReg rt))

/-- `andi rt, rs, imm` (R130). -/
def execAndi (rt rs : Reg) (imm : Nat) (s : State) : Result := s.finish rt (s.readReg rs &&& zextImm imm)

/-- `ori rt, rs, imm` (R131). -/
def execOri (rt rs : Reg) (imm : Nat) (s : State) : Result := s.finish rt (s.readReg rs ||| zextImm imm)

/-- `xori rt, rs, imm` (R132). -/
def execXori (rt rs : Reg) (imm : Nat) (s : State) : Result := s.finish rt (s.readReg rs ^^^ zextImm imm)

end Sys2Proof.Machine
end

