-- ==== Sys2Proof/Machine/MulDiv.lean ====
section
/-! DEFINITION. Multiply, divide, and the moves from HI and LO (R110 to R120). -/

namespace Sys2Proof.Machine

/-- `MUL64(a, b, signed = true)` (R110). -/
def mul64Signed (a b : Word) : BitVec 64 := trunc64 (sgn a * sgn b)

/-- `MUL64(a, b, signed = false)` (R110). -/
def mul64Unsigned (a b : Word) : BitVec 64 := trunc64 (u a * u b)

/-- `HI <- p[63:32]`, `LO <- p[31:0]` (R114). -/
def State.finishProduct (s : State) (p : BitVec 64) : Result :=
  s.finishHiLo (p.extractLsb' 32 32) (p.extractLsb' 0 32)

/-- `DIVREM(a, b, signed = true)`: quotient toward zero, remainder of the dividend's sign (R111). -/
def divRemSigned (a b : Word) : Word × Word :=
  let q := Int.tdiv (sgn a) (sgn b)
  (trunc32 q, trunc32 (sgn a - q * sgn b))

/-- `DIVREM(a, b, signed = false)` (R111). -/
def divRemUnsigned (a b : Word) : Word × Word :=
  let q := u a / u b
  (trunc32 q, trunc32 (u a - q * u b : Int))

/-- -2^31 by -1, the one quotient that does not fit (R112). -/
def divOverflows (a b : Word) : Bool := a = 0x80000000 && b = 0xFFFFFFFF

/-- Quotient and remainder of `div`, the overflow case by `DIV_OVF` (R112). -/
def quotRemSigned (c : Config) (a b : Word) : Word × Word :=
  if divOverflows a b then c.divOvf else divRemSigned a b

/-- Fault on divisor 0, else `LO <- q`, `HI <- r` (R116, R117). -/
def State.finishDivision (s : State) (divisor : Word) (qr : Word × Word) : Result :=
  if divisor = 0 then s.raise .divisionByZero else s.finishHiLo qr.2 qr.1

/-- `mult rs, rt` (R114). -/
def execMult (rs rt : Reg) (s : State) : Result := s.finishProduct (mul64Signed (s.readReg rs) (s.readReg rt))

/-- `multu rs, rt` (R115). -/
def execMultu (rs rt : Reg) (s : State) : Result := s.finishProduct (mul64Unsigned (s.readReg rs) (s.readReg rt))

/-- `div rs, rt` (R116). -/
def execDiv (rs rt : Reg) (s : State) : Result :=
  s.finishDivision (s.readReg rt) (quotRemSigned s.cfg (s.readReg rs) (s.readReg rt))

/-- `divu rs, rt` (R117). -/
def execDivu (rs rt : Reg) (s : State) : Result :=
  s.finishDivision (s.readReg rt) (divRemUnsigned (s.readReg rs) (s.readReg rt))

/-- `mfhi rd` (R118). -/
def execMfhi (rd : Reg) (s : State) : Result := s.finish rd s.hi

/-- `mflo rd` (R119). -/
def execMflo (rd : Reg) (s : State) : Result := s.finish rd s.lo

end Sys2Proof.Machine
end

