-- ==== Sys2Proof/Machine/Shift.lean ====
section
/-! DEFINITION. Shifts by a constant (R134 to R137), with the operators of R12. -/

namespace Sys2Proof.Machine

/-- `a << k = trunc_32(u(a) * 2^k)` (R12). -/
def shiftLeft (a : Word) (k : Nat) : Word := trunc32 (u a * 2 ^ k)

/-- `a >>u k = trunc_32(floor(u(a) / 2^k))` (R12). -/
def shiftRightLogical (a : Word) (k : Nat) : Word := trunc32 (u a / 2 ^ k)

/-- `a >>s k = trunc_32(floor(s(a) / 2^k))` (R12). -/
def shiftRightArith (a : Word) (k : Nat) : Word := trunc32 (sgn a / 2 ^ k)

/-- `sll rd, rt, shamt` (R135). -/
def execSll (rd rt : Reg) (shamt : Nat) (s : State) : Result :=
  s.finish rd (shiftLeft (s.readReg rt) (shiftAmount shamt))

/-- `srl rd, rt, shamt` (R136). -/
def execSrl (rd rt : Reg) (shamt : Nat) (s : State) : Result :=
  s.finish rd (shiftRightLogical (s.readReg rt) (shiftAmount shamt))

/-- `sra rd, rt, shamt` (R137). -/
def execSra (rd rt : Reg) (shamt : Nat) (s : State) : Result :=
  s.finish rd (shiftRightArith (s.readReg rt) (shiftAmount shamt))

end Sys2Proof.Machine
end

