-- ==== Sys2Proof/Machine/Fetch.lean ====
section
/-! DEFINITION. Fetch and the end of the program (R201, R202, R210), and placing an instruction where the next step
fetches it. -/

namespace Sys2Proof.Machine

/-- What the fetch rule finds at `pc` (R201). -/
inductive Fetched where
  /-- `u(pc) = IMEM_WORDS`: the program has ended. -/
  | ended
  /-- No instruction: outside the program, or a word that decodes to none. -/
  | invalid (r : Raised)
  | instr (i : Instr)
  deriving DecidableEq, Repr

/-- Decode the word at `pc`; a reserved word is `InvalidInstruction` (R95, R202b). -/
def decodeAt (pc w : Word) : Fetched :=
  match decode w with
  | .ok i => .instr i
  | .error _ => .invalid (.invalidInstruction pc (some w))

/-- The fetch rule (R201). -/
def State.fetch (s : State) : Fetched :=
  if u s.pc = s.imem.length then .ended
  else
    match s.imem[u s.pc]? with
    | some w => decodeAt s.pc w
    | none => .invalid (.invalidInstruction s.pc none)

/-- Why the executor has no step, if it has none: nothing loaded (R44), or `STATUS` not `Ready` (R208, R222). -/
def State.noStep (s : State) : Option Fault :=
  if s.controller = .unloaded then some .notLoaded
  else if s.status = .ready then none
  else some .halted

/-- The eager report (R201, R210): a step that leaves `pc` at the end of the program terminates. -/
def State.settle (s : State) : State :=
  if s.status = .ready ∧ u s.pc = s.imem.length then s.terminate else s

/-- The eager report on what an instruction answers. -/
def settleResult : Result → Result
  | .next s => .next s.settle
  | .fault f => .fault f
  | .refused r => .refused r

/-- One step of the executor, with the meaning of an instruction as an argument (R201, R222). -/
def stepWith (meaning : Instr → State → Result) (s : State) : Result :=
  match s.noStep with
  | some f => .fault f
  | none =>
    match s.fetch with
    | .ended => .next s.terminate
    | .invalid r => s.raise r
    | .instr i => settleResult (meaning i s)

/-- The list with `w` at index `n`, zero words (no-operations, R97) where it was shorter, and at least one word after. -/
def placeWord : List Word → Nat → Word → List Word
  | [], 0, w => [w, 0]
  | [_], 0, w => [w, 0]
  | _ :: y :: l, 0, w => w :: y :: l
  | [], n + 1, w => 0 :: placeWord [] n w
  | x :: l, n + 1, w => x :: placeWord l n w

/-- A program counts as loaded, not yet ended. -/
def State.makeReady (s : State) : State :=
  { s with
    status := .ready
    controller := match s.controller with
      | .unloaded => .loaded
      | .halted => .paused
      | c => c }

/-- The state whose next step fetches the word `w`. -/
def State.placeAtPc (s : State) (w : Word) : State :=
  { s.makeReady with imem := placeWord s.imem (u s.pc) w }

end Sys2Proof.Machine
end

