-- ==== Sys2Proof/Machine/Step.lean ====
section
/-! DEFINITION. One step of the executor: `exec_step()` (R201, R222). -/

namespace Sys2Proof.Machine

/-- `exec_step()`: fetch, decode, execute one instruction, report the end of the program (R201). -/
def step (s : State) : Host.Outcome State Fault Refusal := stepWith exec s

/-- `s` with the instruction of `nbits` bits `w` loaded where the next step fetches. -/
def State.withFetchWord (s : State) (nbits w : Nat) : State := s.placeAtPc (tableWord nbits w)

end Sys2Proof.Machine
end

