-- ==== Sys2Proof/Machine/Controller.lean ====
section
/-! DEFINITION. The debug controller, the host of the executor (R222 to R236): its operations on the state. -/

namespace Sys2Proof.Machine

/-! ### Register names (R22, R230) -/

/-- The canonical names, in register order (R22). -/
def registerNames : List String :=
  ["$zero", "$at", "$v0", "$v1", "$a0", "$a1", "$a2", "$a3", "$t0", "$t1", "$t2", "$t3", "$t4", "$t5", "$t6", "$t7"] ++
  ["$s0", "$s1", "$s2", "$s3", "$s4", "$s5", "$s6", "$s7", "$t8", "$t9", "$k0", "$k1", "$gp", "$sp", "$fp", "$ra"]

/-- The registers by number (R22). -/
def registerNumbers : List String :=
  ["$0", "$1", "$2", "$3", "$4", "$5", "$6", "$7", "$8", "$9", "$10", "$11", "$12", "$13", "$14", "$15"] ++
  ["$16", "$17", "$18", "$19", "$20", "$21", "$22", "$23", "$24", "$25", "$26", "$27", "$28", "$29", "$30", "$31"]

/-- A register the host can set: a general register, or `$hi`, `$lo` (R230). -/
inductive HostReg where
  | gpr (r : Reg)
  | hi
  | lo
  deriving DecidableEq, Repr

/-- The position of a name in a list of names, counted from `n`. -/
def nameIndex (name : String) : List String → Nat → Option Nat
  | [], _ => none
  | x :: l, n => if x = name then some n else nameIndex name l (n + 1)

/-- The register a name stands for (R22, R230); `pc` is none. -/
def HostReg.ofName (name : String) : Option HostReg :=
  if name = "$hi" then some .hi
  else if name = "$lo" then some .lo
  else
    match nameIndex name registerNames 0, nameIndex name registerNumbers 0 with
    | some n, _ => some (.gpr (Fin.ofNat 32 n))
    | none, some n => some (.gpr (Fin.ofNat 32 n))
    | none, none => none

/-! ### Results (R206, R233) -/

/-- The tag of an ExecutionResult (R18, R206). -/
inductive Tag where
  | continuing
  | breakpoint
  | termination
  | fault (kind : FaultKind)
  deriving DecidableEq, Repr

/-- The 3-bit code of a tag (R206). -/
def Tag.code : Tag → BitVec 3
  | .continuing => 0
  | .breakpoint => 1
  | .termination => 2
  | .fault .invalidInstruction => 4
  | .fault .divisionByZero => 5
  | .fault .memoryOutOfRange => 6
  | .fault .misalignedAccess => 7

/-- The tag of the status after an executor step (R222). -/
def Status.tag : Status → Tag
  | .ready => .continuing
  | .terminated => .termination
  | .fault k => .fault k

/-- The snapshot paired with a result: registers as signed integers, `pc`, `LMA` (R233). -/
structure Snapshot where
  regs : List Int
  hi : Int
  lo : Int
  pc : Word
  lma : Option (Word × Size)
  deriving DecidableEq, Repr

/-- Take a snapshot; it changes nothing (R233). -/
def State.snapshot (s : State) : Snapshot where
  regs := (List.finRange 32).map fun r => sgn (s.readReg r)
  hi := sgn s.hi
  lo := sgn s.lo
  pc := s.pc
  lma := s.lma

/-! ### Load and reset (R224, R225, R240, R241) -/

/-- What the assembler hands over: `IMEM` and `DMEM_INIT` (R8, R62). -/
structure Program where
  words : List Word
  dmemInit : List Host.Cell
  deriving DecidableEq, Repr

/-- The constraints on a program (R8): at most `2^32 - 1` words; initial data at valid addresses outside the window (R62). -/
def Program.ok (p : Program) (c : Config) : Bool :=
  decide (p.words.length ≤ 2 ^ 32 - 1) &&
    p.dmemInit.all fun cell => decide (cell.1 < c.dmemSize) && !c.inWindow cell.1

/-- A memory with the entries of `DMEM_INIT` written into it, in their order (R43, R62). Of two entries for one address the
later stays (log entry 13). -/
def Memory.writeAll (m : Memory) : List Host.Cell → Memory
  | [] => m
  | (a, b) :: l => (m.write a b).writeAll l

/-- `reset()` (R225, R240): everything cleared, the breakpoints too; the parameters are the hardware's (R70). -/
def State.hostReset (s : State) : State := State.cleared s.cfg []

/-- A load that succeeds (R224, R241). -/
def State.loaded (s : State) (p : Program) : State :=
  { State.cleared s.cfg s.breakpoints with
    imem := p.words
    dmem := Memory.writeAll [] p.dmemInit
    controller := .loaded }

/-- `load_source` (R224, R241): `none` is an assembly error; the breakpoint set is kept in either case. -/
def State.loadSource (s : State) (assembled : Option Program) : State :=
  match assembled with
  | some p => if p.ok s.cfg then s.loaded p else State.cleared s.cfg s.breakpoints
  | none => State.cleared s.cfg s.breakpoints

/-! ### Breakpoints (R226) -/

/-- Put an index into a strictly rising list, once. -/
def insertIndex (n : Nat) : List Nat → List Nat
  | [] => [n]
  | x :: l => if n < x then n :: x :: l else if n = x then x :: l else x :: insertIndex n l

/-- The set of the indices of a list, in its one form. -/
def indexSet : List Nat → List Nat
  | [] => []
  | n :: l => insertIndex n (indexSet l)

/-- `set_breakpoints(set)`: valid in any state (R226). -/
def State.setBreakpoints (s : State) (ns : List Nat) : State := { s with breakpoints := indexSet ns }

/-! ### Edits and reads (R230 to R232) -/

/-- The controller states in which `step`, `run`, `set_register`, `set_memory_word` are valid (R223). -/
def Controller.accepts : Controller → Bool
  | .unloaded => false
  | .loaded => true
  | .running => false
  | .paused => true
  | .pausedAtBreakpoint => true
  | .halted => false

/-- `set_register(name, value)` (R230); in a state where it is not valid it does nothing (R223). -/
def State.setRegister (s : State) (r : HostReg) (value : Int) : State :=
  if s.controller.accepts then
    match r with
    | .gpr r => s.writeReg r (trunc32 value)
    | .hi => { s with hi := trunc32 value }
    | .lo => { s with lo := trunc32 value }
  else s

/-- May `set_memory_word` write at this address: aligned, in range, outside the window (R231). -/
def wordSettable (c : Config) (addr : Word) : Bool :=
  !misaligned addr .word && !outOfRange c addr .word &&
    (!c.inWindow (u addr) && !c.inWindow (u addr + 1) && !c.inWindow (u addr + 2) && !c.inWindow (u addr + 3))

/-- `set_memory_word(addr, value)` (R231). -/
def State.setMemoryWord (s : State) (addr : Word) (value : Int) : State :=
  if s.controller.accepts && wordSettable s.cfg addr then
    s.setDataBytes (u addr) (inOrder s.cfg.endian (splitBytes (trunc32 value) 4))
  else s

/-- `get_memory(addr, length)`: the bytes in ascending order (R232); past `DMEM_SIZE` the model gives none (U9). -/
def State.getMemory (s : State) (addr : Word) (length : Nat) : Option (List Byte) :=
  if u addr + length ≤ s.cfg.dmemSize then some (s.dataBytes (u addr) length) else none

/-! ### Step and run (R227 to R229) -/

/-- The controller after an executor step made by `step()`: `Paused` if it can go on, `Halted` by the stop itself (R223). -/
def State.afterStep (t : State) : State :=
  match t.status with
  | .ready => { t with controller := .paused }
  | .terminated => t
  | .fault _ => t

/-- `step()`: one `exec_step()` and the tag (R229); no tag and no change where the call is not valid (R223). -/
def State.stepCall (s : State) : State × Option Tag :=
  if s.controller.accepts then
    match step s with
    | .next t => (t.afterStep, some t.status.tag)
    | .fault _ => (s, none)
    | .refused _ => (s, none)
  else (s, none)

/-- Does `run` pause here, before the instruction at `pc`? (R227) -/
def State.atBreakpoint (s : State) : Bool := decide (u s.pc < s.imem.length) && s.breakpoints.contains (u s.pc)

/-- The loop of `run()` (R227), bounded by fuel (R228); `none` when the fuel ends first. `skip` passes over the test of the
first instruction. -/
def runLoop : Nat → Bool → State → Option (State × Tag)
  | 0, _, _ => none
  | fuel + 1, skip, s =>
    if s.status ≠ .ready then some ({ s with controller := .halted }, s.status.tag)
    else if !skip && s.atBreakpoint then some ({ s with controller := .pausedAtBreakpoint }, .breakpoint)
    else
      match step s with
      | .next t => if t.status = .ready then runLoop fuel false t else some (t, t.status.tag)
      | .fault _ => none
      | .refused _ => none

/-- `run()` (R227): `none` when the fuel ends first; no tag and no change where the call is not valid (R223). -/
def State.runCall (s : State) (fuel : Nat) : Option (State × Option Tag) :=
  if s.controller.accepts then
    (runLoop fuel (decide (s.controller = .pausedAtBreakpoint)) { s with controller := .running }).map
      fun r => (r.1, some r.2)
  else some (s, none)

/-! ### Call sequences (R257) -/

/-- A call by which the host drives a run, or replaces the breakpoints. -/
inductive HostCall where
  | step
  | run (fuel : Nat)
  | setBreakpoints (ns : List Nat)
  deriving DecidableEq, Repr

/-- The state after one call; none where a `run` has not returned within its fuel. -/
def State.call (s : State) : HostCall → Option State
  | .step => some s.stepCall.1
  | .run fuel => (s.runCall fuel).map fun r => r.1
  | .setBreakpoints ns => some (s.setBreakpoints ns)

/-- The state after calls made one after the other. -/
def State.calls (s : State) : List HostCall → Option State
  | [] => some s
  | c :: cs => (s.call c).bind fun t => t.calls cs

end Sys2Proof.Machine
end

