-- ==== Sys2Proof/Machine/Lowering.lean ====
section
/-! DEFINITION. The lowering of the seven pseudo-instructions (R188 to R196), the operands of labels (R78d, R78e) and the
bytes of data directives (R183). The hardware never sees a pseudo-instruction (R2). -/

namespace Sys2Proof.Machine

/-- A pseudo-instruction (R2, R189 to R195); a label is its resolved value (R182). -/
inductive Pseudo where
  | move (rd rs : Reg)
  | li (rd : Reg) (imm : Int)
  | la (rd : Reg) (value : Nat)
  | blt (rs rt : Reg) (target : Nat)
  | bgt (rs rt : Reg) (target : Nat)
  | ble (rs rt : Reg) (target : Nat)
  | bge (rs rt : Reg) (target : Nat)
  deriving DecidableEq, Repr

/-- The register the branch pseudo-instructions overwrite, `$at` (R196). -/
def atReg : Reg := 1

/-- The offset of a branch at `index` to `target`, where it can be encoded (R78d). -/
def branchOffset (index target : Nat) : Option Int :=
  let d : Int := (target : Int) - ((index : Int) + 1)
  if fitsSigned16 d then some d else none

/-- The integers `li` takes: those that fit 32 bits (R190). -/
def fits32 (v : Int) : Bool := decide (-2 ^ 31 ≤ v) && decide (v ≤ 2 ^ 32 - 1)

/-- `li rd, imm` (R190): `addiu` if the immediate fits 16 bits signed, else always both `lui` and `ori`. -/
def lowerConstant (rd : Reg) (imm : Int) : Option (List Instr) :=
  if fitsSigned16 imm then some [.addiu rd 0 imm]
  else if fits32 imm then
    some [.lui rd ((trunc32 imm).extractLsb' 16 16).toNat, .ori rd rd ((trunc32 imm).extractLsb' 0 16).toNat]
  else none

/-- A comparison of `a` with `b` into `$at`, then a branch on it (R192 to R195). The branch is one index later. -/
def lowerCompare (a b : Reg) (branch : Int → Instr) (index target : Nat) : Option (List Instr) :=
  (branchOffset (index + 1) target).map fun d => [.slt atReg a b, branch d]

/-- The machine instructions of a pseudo-instruction at an index (R188 to R195); none where an operand is out of range. -/
def Pseudo.lower (index : Nat) : Pseudo → Option (List Instr)
  | .move rd rs => some [.add rd rs 0]
  | .li rd imm => lowerConstant rd imm
  | .la rd value => lowerConstant rd value
  | .blt rs rt target => lowerCompare rs rt (fun d => .bne atReg 0 d) index target
  | .bgt rs rt target => lowerCompare rt rs (fun d => .bne atReg 0 d) index target
  | .ble rs rt target => lowerCompare rt rs (fun d => .beq atReg 0 d) index target
  | .bge rs rt target => lowerCompare rs rt (fun d => .beq atReg 0 d) index target

/-! ### Data directives (R183) -/

/-- A data item: 32-bit words, the bytes of a string without its closing zero, or a number of zero bytes. -/
inductive Datum where
  | word (values : List Int)
  | asciiz (text : List Byte)
  | space (n : Nat)
  deriving DecidableEq, Repr

/-- The four bytes of a word, least significant first, turned for a big-endian machine (R51, log entry 10). DESIGN CHOICE
(log entry 23): the spec does not say what `.word` does with a value that does not fit 32 bits (N12); the model keeps its low
32 bits. -/
def datumWord (e : Endian) (v : Int) : List Byte :=
  let w := trunc32 v
  let bytes := [w.extractLsb' 0 8, w.extractLsb' 8 8, w.extractLsb' 16 8, w.extractLsb' 24 8]
  match e with
  | .little => bytes
  | .big => bytes.reverse

/-- The bytes an item places, at rising addresses (R183). -/
def Datum.bytes (e : Endian) : Datum → List Byte
  | .word vs => vs.flatMap (datumWord e)
  | .asciiz text => text ++ [0]
  | .space n => List.replicate n 0

/-- Bytes as cells at rising addresses. -/
def cellsAt : Nat → List Byte → List Host.Cell
  | _, [] => []
  | a, b :: bs => (a, b) :: cellsAt (a + 1) bs

/-- `DMEM_INIT` of data items laid one after the other from an address (R62); the address and any alignment between the
items are not the spec's, so the caller gives the first and inserts `space` for the second. -/
def layData (e : Endian) (base : Nat) (items : List Datum) : List Host.Cell :=
  cellsAt base (items.flatMap (Datum.bytes e))

end Sys2Proof.Machine
end

