-- ==== Sys2Proof/Safety.lean ====
section
/-! DEFINITION. The terms claims use: the invariant of the machine, and what a step leaves unchanged. -/

namespace Sys2Proof.Machine

/-! ### What stays unchanged -/

/-- Every byte of `DMEM` and of `PERIPH` reads as before. -/
structure State.SameMemory (s t : State) : Prop where
  dmem : ∀ a, t.dmem.read a = s.dmem.read a
  periph : ∀ a, t.periph.read a = s.periph.read a

/-- `STATUS`, the controller, the program, the breakpoints and the parameters are as before. -/
structure State.SameSystem (s t : State) : Prop where
  status : t.status = s.status
  controller : t.controller = s.controller
  imem : t.imem = s.imem
  breakpoints : t.breakpoints = s.breakpoints
  cfg : t.cfg = s.cfg

/-- Every register of the list aside, the general registers read as before. -/
def State.SameRegsBut (s t : State) (ds : List Reg) : Prop := ∀ r, r ∉ ds → t.readReg r = s.readReg r

/-- `HI` and `LO` are as before. -/
structure State.SameHiLo (s t : State) : Prop where
  hi : t.hi = s.hi
  lo : t.lo = s.lo

/-- The `pc` is the next sequential index (R28). -/
def State.AtNext (s t : State) : Prop := t.pc = trunc32 (u s.pc + 1)

/-- `x[rd] <- v; pc <- pc + 1` and nothing else; a write to register 0 is dropped (R23). -/
structure State.WritesReg (s t : State) (rd : Reg) (v : Word) : Prop where
  result : t.readReg rd = if rd = 0 then 0 else v
  pc : s.AtNext t
  regs : s.SameRegsBut t [rd]
  hilo : s.SameHiLo t
  memory : s.SameMemory t
  lma : t.lma = s.lma
  system : s.SameSystem t

/-- `HI <- h; LO <- l; pc <- pc + 1` and nothing else. -/
structure State.WritesHiLo (s t : State) (h l : Word) : Prop where
  hi : t.hi = h
  lo : t.lo = l
  pc : s.AtNext t
  regs : s.SameRegsBut t []
  memory : s.SameMemory t
  lma : t.lma = s.lma
  system : s.SameSystem t

/-- A load's effect: `x[rt] <- v; LMA <- (ea, n); pc <- pc + 1` and nothing else. -/
structure State.Loads (s t : State) (n : Size) (ea : Word) (rt : Reg) (v : Word) : Prop where
  result : t.readReg rt = if rt = 0 then 0 else v
  pc : s.AtNext t
  regs : s.SameRegsBut t [rt]
  hilo : s.SameHiLo t
  memory : s.SameMemory t
  lma : t.lma = some (ea, n)
  system : s.SameSystem t

/-- A store's effect: the bytes `bs` at `u(ea)`, `u(ea) + 1`, .., `LMA <- (ea, n)`, `pc <- pc + 1` and nothing else. Each byte
goes to `PERIPH` inside the window and to `DMEM` outside (R53); the other memory's byte there is as before. -/
structure State.Stores (s t : State) (n : Size) (ea : Word) (bs : List Byte) : Prop where
  stored : ∀ k, k < n.bytes → some (t.dataByte (u ea + k)) = bs[k]?
  others : ∀ a, ¬ (u ea ≤ a ∧ a < u ea + n.bytes) → t.dmem.read a = s.dmem.read a ∧ t.periph.read a = s.periph.read a
  dmemUnderWindow : ∀ a, s.cfg.inWindow a = true → t.dmem.read a = s.dmem.read a
  periphOutside : ∀ a, s.cfg.inWindow a = false → t.periph.read a = s.periph.read a
  pc : s.AtNext t
  regs : s.SameRegsBut t []
  hilo : s.SameHiLo t
  lma : t.lma = some (ea, n)
  system : s.SameSystem t

/-- A transfer's effect: `pc <- target` and nothing else. -/
structure State.JumpsTo (s t : State) (target : Word) : Prop where
  pc : t.pc = target
  regs : s.SameRegsBut t []
  hilo : s.SameHiLo t
  memory : s.SameMemory t
  lma : t.lma = s.lma
  system : s.SameSystem t

/-- Fault entry (R207): everything as before but `STATUS`, which latches the kind, and the controller, which halts. -/
def State.Faulted (s t : State) (k : FaultKind) : Prop :=
  t = { s with status := .fault k, controller := .halted }

/-- A transfer that links: `x[31] <- pc + 1; pc <- target` and nothing else (R171, R172). -/
structure State.LinksTo (s t : State) (target : Word) : Prop where
  link : t.readReg 31 = trunc32 (u s.pc + 1)
  pc : t.pc = target
  regs : s.SameRegsBut t [31]
  hilo : s.SameHiLo t
  memory : s.SameMemory t
  lma : t.lma = s.lma
  system : s.SameSystem t

/-! ### What an instruction does, in the terms of the rules -/

/-- The instruction answers a next state, of which `P` holds. -/
def Executes (i : Instr) (s : State) (P : State → Prop) : Prop := ∃ t, exec i s = .next t ∧ P t

/-- The word of the R format with `op` = 0, each field at its place (R80). -/
def formatR (rs rt rd : Reg) (shamt funct : Nat) : Word :=
  BitVec.ofNat 32 (rs.val * 2 ^ 21 + rt.val * 2 ^ 16 + rd.val * 2 ^ 11 + shamt * 2 ^ 6 + funct)

/-- The word of the I format, the immediate as its 16 low bits (R78b, R81). -/
def formatI (op : Nat) (rs rt : Reg) (imm : Int) : Word :=
  BitVec.ofNat 32 (op * 2 ^ 26 + rs.val * 2 ^ 21 + rt.val * 2 ^ 16 + (imm % 2 ^ 16).toNat)

/-- The word of the J format (R82). -/
def formatJ (op index : Nat) : Word := BitVec.ofNat 32 (op * 2 ^ 26 + index)

/-- The instruction's word is this one, it lies in the opcode-table row with this match and mask (R92), and decodes back to
the instruction (R93). -/
structure EncodedIn (i : Instr) (word pattern mask : Word) : Prop where
  word : encode i = word
  row : encode i &&& mask = pattern
  decodes : decode (encode i) = .ok i

/-- `sext_32` of the 16 bits of a signed operand (R84). -/
def sext32 (v : Int) : Word := (BitVec.ofInt 16 v).signExtend 32

/-- `zext_32` of the 16 bits of an unsigned operand (R85). -/
def zext32 (v : Nat) : Word := (BitVec.ofNat 16 v).zeroExtend 32

/-- `ea` of a load or store (R150), from the registers before the instruction. -/
def eaOf (s : State) (rs : Reg) (offset : Int) : Word := trunc32 (u (s.readReg rs) + u (sext32 offset))

/-- A data access of `n` bytes at `ea`: what the instruction does when aligned and in range, and which fault it takes when
not (R49, R54, R55); when both apply, `FAULT_ORDER` decides. -/
structure AccessOutcome (i : Instr) (s : State) (ea : Word) (n : Nat) (done : State → Prop) : Prop where
  done : u ea % n = 0 → u ea + n ≤ s.cfg.dmemSize → Executes i s done
  misaligned : u ea % n ≠ 0 → (u ea + n ≤ s.cfg.dmemSize ∨ s.cfg.faultOrder = .misalignedFirst) →
    Executes i s fun t => s.Faulted t .misalignedAccess
  outOfRange : u ea + n > s.cfg.dmemSize → (u ea % n = 0 ∨ s.cfg.faultOrder = .rangeFirst) →
    Executes i s fun t => s.Faulted t .memoryOutOfRange

/-- The halfword at an address, in the byte order of `ENDIAN` (R51). -/
def State.halfAt (s : State) (a : Nat) : BitVec 16 :=
  match s.cfg.endian with
  | .little => s.dataByte (a + 1) ++ s.dataByte a
  | .big => s.dataByte a ++ s.dataByte (a + 1)

/-- The word at an address, in the byte order of `ENDIAN` (R51). -/
def State.wordAt (s : State) (a : Nat) : Word :=
  match s.cfg.endian with
  | .little => s.dataByte (a + 3) ++ s.dataByte (a + 2) ++ s.dataByte (a + 1) ++ s.dataByte a
  | .big => s.dataByte a ++ s.dataByte (a + 1) ++ s.dataByte (a + 2) ++ s.dataByte (a + 3)

/-- The bytes of a word's low halfword at rising addresses (R51, R53). -/
def halfBytes (e : Endian) (v : Word) : List Byte :=
  match e with
  | .little => [v.extractLsb' 0 8, v.extractLsb' 8 8]
  | .big => [v.extractLsb' 8 8, v.extractLsb' 0 8]

/-- The bytes of a word at rising addresses (R51, R53). -/
def wordBytes (e : Endian) (v : Word) : List Byte :=
  match e with
  | .little => [v.extractLsb' 0 8, v.extractLsb' 8 8, v.extractLsb' 16 8, v.extractLsb' 24 8]
  | .big => [v.extractLsb' 24 8, v.extractLsb' 16 8, v.extractLsb' 8 8, v.extractLsb' 0 8]

/-- Both byte memories are in canonical form; part of the invariant. -/
structure State.MemWf (s : State) : Prop where
  dmem : s.dmem.wf = true
  periph : s.periph.wf = true

/-- Instructions executed one after the other, by their meanings alone. -/
def execAll : List Instr → State → Result
  | [], s => .next s
  | i :: is, s =>
    match exec i s with
    | .next t => execAll is t
    | .fault f => .fault f
    | .refused r => .refused r

/-! ### Kinds of instruction -/

/-- What an instruction does besides advancing: write a general register, write HI and LO, load, store, or transfer. -/
inductive Kind where
  | register
  | hilo
  | load
  | store
  | transfer
  deriving DecidableEq, Repr

/-- The kind of each instruction (R25, R33, R48, R165). `jal` is a transfer that also writes register 31. -/
def kindOf : Instr → Kind
  | .add _ _ _ | .addu _ _ _ | .sub _ _ _ | .subu _ _ _ | .addi _ _ _ | .addiu _ _ _ | .mfhi _ | .mflo _
  | .and _ _ _ | .or _ _ _ | .xor _ _ _ | .nor _ _ _ | .andi _ _ _ | .ori _ _ _ | .xori _ _ _
  | .sll _ _ _ | .srl _ _ _ | .sra _ _ _ | .slt _ _ _ | .sltu _ _ _ | .slti _ _ _ | .sltiu _ _ _ | .lui _ _ => .register
  | .mult _ _ | .multu _ _ | .div _ _ | .divu _ _ => .hilo
  | .lw _ _ _ | .lh _ _ _ | .lb _ _ _ => .load
  | .sw _ _ _ | .sh _ _ _ | .sb _ _ _ => .store
  | .beq _ _ _ | .bne _ _ _ | .j _ | .jal _ | .jr _ => .transfer

/-- The general register an instruction writes, if any (R25). -/
def destOf : Instr → Option Reg
  | .add rd _ _ | .addu rd _ _ | .sub rd _ _ | .subu rd _ _ | .and rd _ _ | .or rd _ _ | .xor rd _ _ | .nor rd _ _
  | .slt rd _ _ | .sltu rd _ _ | .sll rd _ _ | .srl rd _ _ | .sra rd _ _ | .mfhi rd | .mflo rd => some rd
  | .addi rt _ _ | .addiu rt _ _ | .slti rt _ _ | .sltiu rt _ _ | .andi rt _ _ | .ori rt _ _ | .xori rt _ _
  | .lui rt _ | .lw rt _ _ | .lh rt _ _ | .lb rt _ _ => some rt
  | .jal _ => some 31
  | .mult _ _ | .multu _ _ | .div _ _ | .divu _ _ | .sw _ _ _ | .sh _ _ _ | .sb _ _ _ | .beq _ _ _ | .bne _ _ _
  | .j _ | .jr _ => none

/-! ### The invariant -/

/-- What every step and every host operation keeps true of a state. -/
structure State.Inv (s : State) : Prop where
  /-- The parameters are legal (R8). -/
  cfg : s.cfg.wf = true
  /-- Register 0's cell holds zero (R23). -/
  zero : s.regs[0] = 0
  /-- `IMEM_WORDS <= 2^32 - 1` (R8). -/
  program : s.imem.length ≤ 2 ^ 32 - 1
  /-- `DMEM` is in canonical form, in range, and holds nothing under the window (R38, R66). -/
  dmemForm : s.dmem.wf = true
  dmemPlace : ∀ c ∈ s.dmem, c.1 < s.cfg.dmemSize ∧ s.cfg.inWindow c.1 = false
  /-- `PERIPH` is in canonical form and holds nothing outside the window (R39). -/
  periphForm : s.periph.wf = true
  periphPlace : ∀ c ∈ s.periph, s.cfg.inWindow c.1 = true
  /-- The breakpoint set is in its one form (R41). -/
  breakpoints : s.breakpoints.Pairwise (· < ·)
  /-- The last access is one that passes the checks (R37). -/
  lma : ∀ ea n, s.lma = some (ea, n) → checkAccess s.cfg ea n = none
  /-- The controller is halted exactly when `STATUS` is not `Ready` (R207, R210). -/
  halted : s.controller = .halted ↔ s.status ≠ .ready
  /-- Unloaded means no program (R240). -/
  unloaded : s.controller = .unloaded → s.imem = []
  /-- Terminated means at the end of the program (R210, R257). -/
  ended : s.status = .terminated → u s.pc = s.imem.length
  /-- A ready machine is at the end only of an empty program (R210). -/
  atEnd : s.status = .ready → u s.pc = s.imem.length → s.imem = []
  /-- A faulted machine is not at the end; only `InvalidInstruction` is raised outside the program (R202). -/
  faulted : ∀ k, s.status = .fault k →
    u s.pc ≠ s.imem.length ∧ (k ≠ .invalidInstruction → u s.pc < s.imem.length)

/-- A safe run's state: no fault is latched (R257). -/
def State.Safe (s : State) : Bool :=
  match s.status with
  | .ready => true
  | .terminated => true
  | .fault _ => false

end Sys2Proof.Machine
end

