-- ==== Sys2Proof/Certificates/Slice0/Obligations.lean ====
section
/-! DEFINITION. The statements for the provers. -/

open Sys2Proof Sys2Proof.Machine

/-! ### Reset, load and the invariant -/

/-- R240 of `reset()`, and R43's column "value after reset" of the state after reset. -/
def Obligations.ResetClearsEverything : Prop :=
  (∀ s : State, (∀ r, s.hostReset.readReg r = 0) ∧ s.hostReset.hi = 0 ∧ s.hostReset.lo = 0 ∧ s.hostReset.pc = 0 ∧
    (∀ a, s.hostReset.dmem.read a = 0 ∧ s.hostReset.periph.read a = 0) ∧ s.hostReset.lma = none ∧
    s.hostReset.status = .ready ∧ s.hostReset.imem = [] ∧ s.hostReset.breakpoints = [] ∧
    s.hostReset.controller = .unloaded ∧ ∀ t, step s.hostReset ≠ .next t) ∧
  (∀ r, State.reset.readReg r = 0) ∧ State.reset.hostReset = State.reset

/-- R224, R241: a load keeps the breakpoints, clears the rest, and on success installs the program at index 0. -/
def Obligations.LoadInstallsProgram : Prop :=
  ∀ (s : State) (p : Program),
    (p.ok s.cfg = true →
      (∀ r, (s.loadSource (some p)).readReg r = 0) ∧ (s.loadSource (some p)).hi = 0 ∧ (s.loadSource (some p)).lo = 0 ∧
      (s.loadSource (some p)).pc = 0 ∧ (s.loadSource (some p)).status = .ready ∧ (s.loadSource (some p)).lma = none ∧
      (s.loadSource (some p)).controller = .loaded ∧ (s.loadSource (some p)).imem = p.words ∧
      (∀ a, (s.loadSource (some p)).periph.read a = 0) ∧
      (∀ a, (∀ c ∈ p.dmemInit, c.1 ≠ a) → (s.loadSource (some p)).dmem.read a = 0) ∧
      (p.dmemInit.Pairwise (fun c d => c.1 ≠ d.1) → ∀ c ∈ p.dmemInit, (s.loadSource (some p)).dmem.read c.1 = c.2) ∧
      (s.loadSource (some p)).breakpoints = s.breakpoints ∧ (s.loadSource (some p)).cfg = s.cfg) ∧
    s.loadSource none = State.cleared s.cfg s.breakpoints ∧ (s.loadSource none).controller = .unloaded ∧
    (s.loadSource none).imem = []

def Obligations.ResetMeetsTheInvariant : Prop := State.reset.Inv

def Obligations.EveryStepKeepsTheInvariant : Prop :=
  ∀ s t : State, s.Inv → step s = .next t → t.Inv

/-- Every operation of the debug controller keeps the invariant. A call from inside a `run` is outside the model (R234). -/
def Obligations.HostOperationsKeepTheInvariant : Prop :=
  ∀ s : State, s.Inv →
    s.hostReset.Inv ∧ (∀ p, (s.loadSource p).Inv) ∧ (∀ ns, (s.setBreakpoints ns).Inv) ∧
    (∀ r v, (s.setRegister r v).Inv) ∧ (∀ a v, (s.setMemoryWord a v).Inv) ∧ s.stepCall.1.Inv ∧
    ∀ fuel r, s.runCall fuel = some r → r.1.Inv

/-! ### Encoding -/

/-- R77, one direction: decoding an encoded instruction gives it back, every operand at every value in range. -/
def Obligations.DecodeOfEncode : Prop := ∀ i : Instr, i.wf = true → decode (encode i) = .ok i

/-- R77, the other direction: a word that decodes is the encoding of what it decodes to, and that is in range. -/
def Obligations.EncodeOfDecode : Prop := ∀ (w : Word) (i : Instr), decode w = .ok i → i.wf = true ∧ encode i = w

/-- R92: a word is the instruction of a row of the opcode table exactly when `w & mask = match`. -/
def Obligations.DecodeFollowsTheOpcodeTable : Prop :=
  ∀ (w : Word) (r : Row), r ∈ opcodeTable →
    (r.matches w = true ↔ ∃ i, decode w = .ok i ∧ i.mnemonic = r.mnemonic)

/-- R93: no word matches two rows. -/
def Obligations.OpcodeTableRowsAreDisjoint : Prop :=
  ∀ (w : Word) (r q : Row), r ∈ opcodeTable → q ∈ opcodeTable → r.matches w = true → q.matches w = true → r = q

/-- R90, R91: every primary opcode and function code outside the tables is reserved. -/
def Obligations.UnlistedCodesAreReserved : Prop :=
  ∀ w : Word,
    ((opOf w).toNat ∉ [0x00, 0x02, 0x03, 0x04, 0x05, 0x08, 0x09, 0x0A, 0x0B, 0x0C, 0x0D, 0x0E, 0x0F, 0x20, 0x21, 0x23,
        0x28, 0x29, 0x2B] → ∃ e, decode w = .error e) ∧
    (opOf w = 0 → (functOf w).toNat ∉ [0x00, 0x02, 0x03, 0x08, 0x10, 0x12, 0x18, 0x19, 0x1A, 0x1B, 0x20, 0x21, 0x22,
        0x23, 0x24, 0x25, 0x26, 0x27, 0x2A, 0x2B] → ∃ e, decode w = .error e)

/-- Words of `95_test_vectors.md` and of the rules' examples. -/
def Obligations.SampleWordsDecode : Prop :=
  decode 0x012A4020 = .ok (.add 8 9 10) ∧ decode 0x2408FFFB = .ok (.addiu 8 0 (-5)) ∧
  decode 0x0120001A = .ok (.div 9 0) ∧ decode 0x3928FFFF = .ok (.xori 8 9 65535) ∧
  decode 0x00094103 = .ok (.sra 8 9 4) ∧ decode 0x2D28FFFF = .ok (.sltiu 8 9 (-1)) ∧
  decode 0x8528FFFE = .ok (.lh 8 (-2) 9) ∧ decode 0x3C081234 = .ok (.lui 8 0x1234) ∧
  decode 0x1420FFFD = .ok (.bne 1 0 (-3)) ∧ decode 0x0FFFFFFF = .ok (.jal 67108863) ∧
  decode 0x03E00008 = .ok (.jr 31) ∧ decode 0x012A4060 = .error (.nonzeroField "add")

/-! ### The step -/

/-- R201: when the word at `pc` decodes, a step is that instruction's meaning, then the eager end-of-program report; the other
cases end the program or raise `InvalidInstruction`. That the controller is halted within the executor's step is the model's
reading of R207(d) and R210 (log entry 16). -/
def Obligations.StepRunsTheDecodedInstruction : Prop :=
  ∀ s : State, s.status = .ready → s.controller ≠ .unloaded →
    (∀ (w : Word) (i : Instr), s.imem[u s.pc]? = some w → decode w = .ok i →
      ∃ t, exec i s = .next t ∧
        step s = .next (if t.status = .ready ∧ u t.pc = t.imem.length
          then { t with status := .terminated, controller := .halted } else t)) ∧
    (u s.pc = s.imem.length → step s = .next { s with status := .terminated, controller := .halted }) ∧
    (u s.pc > s.imem.length → ∃ t, step s = .next t ∧ s.Faulted t .invalidInstruction) ∧
    ∀ (w : Word) (e : DecodeError), s.imem[u s.pc]? = some w → decode w = .error e →
      ∃ t, step s = .next t ∧ s.Faulted t .invalidInstruction

/-- R44, R208: the executor has no step before a load, nor once `STATUS` is not `Ready`. -/
def Obligations.NoStepUnloadedOrHalted : Prop :=
  ∀ s : State, (s.controller = .unloaded → step s = .fault .notLoaded) ∧
    (s.controller ≠ .unloaded → s.status ≠ .ready → step s = .fault .halted) ∧
    (s.controller ≠ .unloaded → s.status = .ready → ∃ t, step s = .next t)

/-- R207: when a step latches a fault, nothing else changed but the controller, which is halted; `step()` and a `run()` that
meets it return the fault's tag, with a snapshot of the state before. -/
def Obligations.FaultsArePrecise : Prop :=
  ∀ (s t : State) (k : FaultKind), s.status = .ready → step s = .next t → t.status = .fault k →
    s.Faulted t k ∧ t.snapshot = s.snapshot ∧
    (s.controller.accepts = true → s.stepCall = (t, some (.fault k))) ∧
    ∀ (q : State) (fuel : Nat) (r : State × Option Tag), q.controller.accepts = true → q.status = .ready →
      q.runCall fuel = some r → r.1.status = .fault k → r.2 = some (.fault k) ∧ r.1.controller = .halted

/-- The fixed name `withFetchWord` does what it is for: the very next step runs the placed word's instruction. -/
def Obligations.PlacedWordRunsNext : Prop :=
  ∀ (s : State) (w : Nat) (i : Instr), decodeTableWord 32 w = some i →
    ∃ t, exec i (s.withFetchWord 32 w) = .next t ∧
      (u t.pc ≠ t.imem.length → step (s.withFetchWord 32 w) = .next t)

/-! ### Arithmetic -/

/-- R102 to R105. -/
def Obligations.AddAndSubtractWrap : Prop :=
  ∀ (s : State) (rd rs rt : Reg),
    let sum := trunc32 (u (s.readReg rs) + u (s.readReg rt))
    let difference := trunc32 (u (s.readReg rs) - u (s.readReg rt))
    (EncodedIn (.add rd rs rt) (formatR rs rt rd 0 0x20) 0x00000020 0xFC0007FF ∧
      Executes (.add rd rs rt) s fun t => s.WritesReg t rd sum) ∧
    (EncodedIn (.addu rd rs rt) (formatR rs rt rd 0 0x21) 0x00000021 0xFC0007FF ∧
      Executes (.addu rd rs rt) s fun t => s.WritesReg t rd sum) ∧
    (EncodedIn (.sub rd rs rt) (formatR rs rt rd 0 0x22) 0x00000022 0xFC0007FF ∧
      Executes (.sub rd rs rt) s fun t => s.WritesReg t rd difference) ∧
    (EncodedIn (.subu rd rs rt) (formatR rs rt rd 0 0x23) 0x00000023 0xFC0007FF ∧
      Executes (.subu rd rs rt) s fun t => s.WritesReg t rd difference)

/-- R106, R107. -/
def Obligations.AddImmediateSignExtends : Prop :=
  ∀ (s : State) (rt rs : Reg) (imm : Int), fitsSigned16 imm = true →
    let sum := trunc32 (u (s.readReg rs) + u (sext32 imm))
    (EncodedIn (.addi rt rs imm) (formatI 0x08 rs rt imm) 0x20000000 0xFC000000 ∧
      Executes (.addi rt rs imm) s fun t => s.WritesReg t rt sum) ∧
    (EncodedIn (.addiu rt rs imm) (formatI 0x09 rs rt imm) 0x24000000 0xFC000000 ∧
      Executes (.addiu rt rs imm) s fun t => s.WritesReg t rt sum)

/-- R101: the unsigned forms act as the signed ones, and the wrapped result is the same read as signed or as unsigned. -/
def Obligations.UnsignedArithmeticActsAsSigned : Prop :=
  (∀ (s : State) (rd rs rt : Reg),
    exec (.addu rd rs rt) s = exec (.add rd rs rt) s ∧ exec (.subu rd rs rt) s = exec (.sub rd rs rt) s) ∧
  (∀ (s : State) (rt rs : Reg) (imm : Int), exec (.addiu rt rs imm) s = exec (.addi rt rs imm) s) ∧
  ∀ a b : Word, trunc32 (sgn a + sgn b) = trunc32 (u a + u b)

/-! ### Multiply and divide -/

/-- R114, R115. -/
def Obligations.MultiplyWritesBothHalves : Prop :=
  ∀ (s : State) (rs rt : Reg),
    let p := trunc64 (sgn (s.readReg rs) * sgn (s.readReg rt))
    let q := trunc64 (u (s.readReg rs) * u (s.readReg rt))
    (EncodedIn (.mult rs rt) (formatR rs rt 0 0 0x18) 0x00000018 0xFC00FFFF ∧
      Executes (.mult rs rt) s fun t => s.WritesHiLo t (p.extractLsb' 32 32) (p.extractLsb' 0 32)) ∧
    (EncodedIn (.multu rs rt) (formatR rs rt 0 0 0x19) 0x00000019 0xFC00FFFF ∧
      Executes (.multu rs rt) s fun t => s.WritesHiLo t (q.extractLsb' 32 32) (q.extractLsb' 0 32))

/-- R110: HI and LO together are the exact product. -/
def Obligations.ProductsAreExact : Prop :=
  ∀ (s t : State) (rs rt : Reg),
    (exec (.mult rs rt) s = .next t → (t.hi ++ t.lo).toInt = sgn (s.readReg rs) * sgn (s.readReg rt)) ∧
    (exec (.multu rs rt) s = .next t → (t.hi ++ t.lo).toNat = u (s.readReg rs) * u (s.readReg rt))

/-- R116 with the default `DIV_OVF`: `DIVREM` of R111, which gives R112's result for -2^31 by -1; divisor 0 faults. -/
def Obligations.SignedDivision : Prop :=
  ∀ (s : State) (rs rt : Reg),
    let a := sgn (s.readReg rs)
    let b := sgn (s.readReg rt)
    EncodedIn (.div rs rt) (formatR rs rt 0 0 0x1A) 0x0000001A 0xFC00FFFF ∧
    (s.readReg rt = 0 → Executes (.div rs rt) s fun t => s.Faulted t .divisionByZero) ∧
    (s.readReg rt ≠ 0 → s.cfg.divOvf = (0x80000000, 0x00000000) →
      Executes (.div rs rt) s fun t => s.WritesHiLo t (trunc32 (a - a.tdiv b * b)) (trunc32 (a.tdiv b)))

/-- R112 with any `DIV_OVF`: only -2^31 by -1 uses it. -/
def Obligations.DivisionOverflowUsesItsParameter : Prop :=
  ∀ (s : State) (rs rt : Reg), s.readReg rt ≠ 0 →
    let a := sgn (s.readReg rs)
    let b := sgn (s.readReg rt)
    Executes (.div rs rt) s fun t =>
      if a = -2 ^ 31 ∧ b = -1 then s.WritesHiLo t s.cfg.divOvf.2 s.cfg.divOvf.1
      else s.WritesHiLo t (trunc32 (a - a.tdiv b * b)) (trunc32 (a.tdiv b))

/-- R117. -/
def Obligations.UnsignedDivision : Prop :=
  ∀ (s : State) (rs rt : Reg),
    let a := u (s.readReg rs)
    let b := u (s.readReg rt)
    EncodedIn (.divu rs rt) (formatR rs rt 0 0 0x1B) 0x0000001B 0xFC00FFFF ∧
    (s.readReg rt = 0 → Executes (.divu rs rt) s fun t => s.Faulted t .divisionByZero) ∧
    (s.readReg rt ≠ 0 →
      Executes (.divu rs rt) s fun t => s.WritesHiLo t (BitVec.ofNat 32 (a % b)) (BitVec.ofNat 32 (a / b)))

/-- R120: quotient and remainder of a signed division, away from the overflow pair, as signed integers. -/
def Obligations.SignedDivisionIdentity : Prop :=
  ∀ (s t : State) (rs rt : Reg),
    let a := sgn (s.readReg rs)
    let b := sgn (s.readReg rt)
    b ≠ 0 → ¬ (a = -2 ^ 31 ∧ b = -1) → exec (.div rs rt) s = .next t →
      a = sgn t.lo * b + sgn t.hi ∧ (sgn t.lo).natAbs = a.natAbs / b.natAbs ∧ (sgn t.hi).natAbs = a.natAbs % b.natAbs ∧
      (sgn t.lo < 0 ↔ ((a < 0 ∧ 0 < b) ∨ (0 < a ∧ b < 0)) ∧ sgn t.lo ≠ 0) ∧ (sgn t.hi < 0 ↔ a < 0 ∧ sgn t.hi ≠ 0)

/-- R118, R119. -/
def Obligations.MovesFromHiAndLo : Prop :=
  ∀ (s : State) (rd : Reg),
    (EncodedIn (.mfhi rd) (formatR 0 0 rd 0 0x10) 0x00000010 0xFFFF07FF ∧
      Executes (.mfhi rd) s fun t => s.WritesReg t rd s.hi) ∧
    (EncodedIn (.mflo rd) (formatR 0 0 rd 0 0x12) 0x00000012 0xFFFF07FF ∧
      Executes (.mflo rd) s fun t => s.WritesReg t rd s.lo)

/-! ### Logic -/

/-- R126 to R129. -/
def Obligations.LogicalRegisterForms : Prop :=
  ∀ (s : State) (rd rs rt : Reg),
    let a := s.readReg rs
    let b := s.readReg rt
    (EncodedIn (.and rd rs rt) (formatR rs rt rd 0 0x24) 0x00000024 0xFC0007FF ∧
      Executes (.and rd rs rt) s fun t => s.WritesReg t rd (a &&& b)) ∧
    (EncodedIn (.or rd rs rt) (formatR rs rt rd 0 0x25) 0x00000025 0xFC0007FF ∧
      Executes (.or rd rs rt) s fun t => s.WritesReg t rd (a ||| b)) ∧
    (EncodedIn (.xor rd rs rt) (formatR rs rt rd 0 0x26) 0x00000026 0xFC0007FF ∧
      Executes (.xor rd rs rt) s fun t => s.WritesReg t rd (a ^^^ b)) ∧
    (EncodedIn (.nor rd rs rt) (formatR rs rt rd 0 0x27) 0x00000027 0xFC0007FF ∧
      Executes (.nor rd rs rt) s fun t => s.WritesReg t rd (~~~(a ||| b)))

/-- R130 to R132. -/
def Obligations.LogicalImmediateForms : Prop :=
  ∀ (s : State) (rt rs : Reg) (imm : Nat), fitsUnsigned16 imm = true →
    let a := s.readReg rs
    (EncodedIn (.andi rt rs imm) (formatI 0x0C rs rt imm) 0x30000000 0xFC000000 ∧
      Executes (.andi rt rs imm) s fun t => s.WritesReg t rt (a &&& zext32 imm)) ∧
    (EncodedIn (.ori rt rs imm) (formatI 0x0D rs rt imm) 0x34000000 0xFC000000 ∧
      Executes (.ori rt rs imm) s fun t => s.WritesReg t rt (a ||| zext32 imm)) ∧
    (EncodedIn (.xori rt rs imm) (formatI 0x0E rs rt imm) 0x38000000 0xFC000000 ∧
      Executes (.xori rt rs imm) s fun t => s.WritesReg t rt (a ^^^ zext32 imm))

/-- R125: a logical instruction works bit by bit; the upper half of `ori`, `xori` passes through, that of `andi` is 0. -/
def Obligations.LogicWorksBitByBit : Prop :=
  ∀ (s t : State) (d rs rt : Reg) (imm k : Nat), d ≠ 0 → k < 32 →
    let a := (s.readReg rs).getLsbD k
    let b := (s.readReg rt).getLsbD k
    let c := imm.testBit k && decide (k < 16)
    (exec (.and d rs rt) s = .next t → (t.readReg d).getLsbD k = (a && b)) ∧
    (exec (.or d rs rt) s = .next t → (t.readReg d).getLsbD k = (a || b)) ∧
    (exec (.xor d rs rt) s = .next t → (t.readReg d).getLsbD k = (a != b)) ∧
    (exec (.nor d rs rt) s = .next t → (t.readReg d).getLsbD k = !(a || b)) ∧
    (exec (.andi d rs imm) s = .next t → (t.readReg d).getLsbD k = (a && c)) ∧
    (exec (.ori d rs imm) s = .next t → (t.readReg d).getLsbD k = (a || c)) ∧
    (exec (.xori d rs imm) s = .next t → (t.readReg d).getLsbD k = (a != c))

/-! ### Shifts -/

/-- R135 to R137, with the operators of R12. -/
def Obligations.ShiftsByAConstant : Prop :=
  ∀ (s : State) (rd rt : Reg) (shamt : Nat), shamt ≤ 31 →
    let a := s.readReg rt
    (EncodedIn (.sll rd rt shamt) (formatR 0 rt rd shamt 0x00) 0x00000000 0xFFE0003F ∧
      Executes (.sll rd rt shamt) s fun t => s.WritesReg t rd (trunc32 (u a * 2 ^ shamt))) ∧
    (EncodedIn (.srl rd rt shamt) (formatR 0 rt rd shamt 0x02) 0x00000002 0xFFE0003F ∧
      Executes (.srl rd rt shamt) s fun t => s.WritesReg t rd (BitVec.ofNat 32 (u a / 2 ^ shamt))) ∧
    (EncodedIn (.sra rd rt shamt) (formatR 0 rt rd shamt 0x03) 0x00000003 0xFFE0003F ∧
      Executes (.sra rd rt shamt) s fun t => s.WritesReg t rd (trunc32 (sgn a / 2 ^ shamt)))

/-- R134: which bit of the source each bit of the result is. -/
def Obligations.ShiftsFillVacatedBits : Prop :=
  ∀ (s t : State) (rd rt : Reg) (shamt k : Nat), rd ≠ 0 → shamt ≤ 31 → k < 32 →
    let a := s.readReg rt
    (exec (.sll rd rt shamt) s = .next t →
      (t.readReg rd).getLsbD k = if k < shamt then false else a.getLsbD (k - shamt)) ∧
    (exec (.srl rd rt shamt) s = .next t →
      (t.readReg rd).getLsbD k = if k + shamt < 32 then a.getLsbD (k + shamt) else false) ∧
    (exec (.sra rd rt shamt) s = .next t →
      (t.readReg rd).getLsbD k = if k + shamt < 32 then a.getLsbD (k + shamt) else a.getLsbD 31)

/-! ### Comparisons -/

/-- R141, R142. -/
def Obligations.SetOnLessThan : Prop :=
  ∀ (s : State) (rd rs rt : Reg),
    let a := s.readReg rs
    let b := s.readReg rt
    (EncodedIn (.slt rd rs rt) (formatR rs rt rd 0 0x2A) 0x0000002A 0xFC0007FF ∧
      Executes (.slt rd rs rt) s fun t => s.WritesReg t rd (if sgn a < sgn b then 1 else 0)) ∧
    (EncodedIn (.sltu rd rs rt) (formatR rs rt rd 0 0x2B) 0x0000002B 0xFC0007FF ∧
      Executes (.sltu rd rs rt) s fun t => s.WritesReg t rd (if u a < u b then 1 else 0))

/-- R144, R145. -/
def Obligations.SetOnLessThanImmediate : Prop :=
  ∀ (s : State) (rt rs : Reg) (imm : Int), fitsSigned16 imm = true →
    let a := s.readReg rs
    (EncodedIn (.slti rt rs imm) (formatI 0x0A rs rt imm) 0x28000000 0xFC000000 ∧
      Executes (.slti rt rs imm) s fun t => s.WritesReg t rt (if sgn a < imm then 1 else 0)) ∧
    (EncodedIn (.sltiu rt rs imm) (formatI 0x0B rs rt imm) 0x2C000000 0xFC000000 ∧
      Executes (.sltiu rt rs imm) s fun t => s.WritesReg t rt (if u a < u (sext32 imm) then 1 else 0))

/-- R143: `slt` and `sltu` differ exactly when the operands differ in bit 31, and then as stated. -/
def Obligations.SignedAndUnsignedOrderDiffer : Prop :=
  ∀ (s t q : State) (rd rs rt : Reg), rd ≠ 0 → exec (.slt rd rs rt) s = .next t → exec (.sltu rd rs rt) s = .next q →
    let a := (s.readReg rs).getLsbD 31
    let b := (s.readReg rt).getLsbD 31
    (a = b → t.readReg rd = q.readReg rd) ∧
    (a = true → b = false → t.readReg rd = 1 ∧ q.readReg rd = 0) ∧
    (a = false → b = true → t.readReg rd = 0 ∧ q.readReg rd = 1)

/-! ### Loads, stores, `lui` -/

/-- R152, R154, R156. The big-endian value is the model's reading of R51 (log entry 10), the range-first fault its reading of
`FAULT_ORDER` (log entry 11). -/
def Obligations.LoadsReadAndExtend : Prop :=
  ∀ (s : State) (rt rs : Reg) (offset : Int), fitsSigned16 offset = true →
    let ea := eaOf s rs offset
    (EncodedIn (.lw rt offset rs) (formatI 0x23 rs rt offset) 0x8C000000 0xFC000000 ∧
      AccessOutcome (.lw rt offset rs) s ea 4 fun t => s.Loads t .word ea rt (s.wordAt (u ea))) ∧
    (EncodedIn (.lb rt offset rs) (formatI 0x20 rs rt offset) 0x80000000 0xFC000000 ∧
      AccessOutcome (.lb rt offset rs) s ea 1 fun t => s.Loads t .byte ea rt ((s.dataByte (u ea)).signExtend 32)) ∧
    (EncodedIn (.lh rt offset rs) (formatI 0x21 rs rt offset) 0x84000000 0xFC000000 ∧
      AccessOutcome (.lh rt offset rs) s ea 2 fun t => s.Loads t .half ea rt ((s.halfAt (u ea)).signExtend 32))

/-- R153, R155, R157, with the frame of memory. The big-endian bytes are the model's reading of R51 (log entry 10), the
range-first fault its reading of `FAULT_ORDER` (log entry 11). -/
def Obligations.StoresWriteTheirBytes : Prop :=
  ∀ (s : State) (rt rs : Reg) (offset : Int), s.MemWf → fitsSigned16 offset = true →
    let ea := eaOf s rs offset
    let v := s.readReg rt
    (EncodedIn (.sw rt offset rs) (formatI 0x2B rs rt offset) 0xAC000000 0xFC000000 ∧
      AccessOutcome (.sw rt offset rs) s ea 4 fun t => s.Stores t .word ea (wordBytes s.cfg.endian v)) ∧
    (EncodedIn (.sb rt offset rs) (formatI 0x28 rs rt offset) 0xA0000000 0xFC000000 ∧
      AccessOutcome (.sb rt offset rs) s ea 1 fun t => s.Stores t .byte ea [v.extractLsb' 0 8]) ∧
    (EncodedIn (.sh rt offset rs) (formatI 0x29 rs rt offset) 0xA4000000 0xFC000000 ∧
      AccessOutcome (.sh rt offset rs) s ea 2 fun t => s.Stores t .half ea (halfBytes s.cfg.endian v))

/-- R160. -/
def Obligations.LuiLoadsTheUpperHalf : Prop :=
  ∀ (s : State) (rt : Reg) (imm : Nat), fitsUnsigned16 imm = true →
    EncodedIn (.lui rt imm) (formatI 0x0F 0 rt imm) 0x3C000000 0xFFE00000 ∧
    Executes (.lui rt imm) s fun t => s.WritesReg t rt (BitVec.ofNat 32 (imm * 65536))

/-- D00's round trip (T5), in either byte order and inside or outside the window. -/
def Obligations.LoadAfterStoreGivesTheValue : Prop :=
  ∀ (s : State) (rt rs rd : Reg) (offset : Int), s.MemWf → rd ≠ 0 →
    let v := s.readReg rt
    (∀ t, exec (.sw rt offset rs) s = .next t → t.status = .ready → s.status = .ready →
      Executes (.lw rd offset rs) t fun q => q.readReg rd = v) ∧
    (∀ t, exec (.sh rt offset rs) s = .next t → t.status = .ready → s.status = .ready →
      Executes (.lh rd offset rs) t fun q => q.readReg rd = (v.extractLsb' 0 16).signExtend 32) ∧
    (∀ t, exec (.sb rt offset rs) s = .next t → t.status = .ready → s.status = .ready →
      Executes (.lb rd offset rs) t fun q => q.readReg rd = (v.extractLsb' 0 8).signExtend 32)

/-- R51: the four bytes of a stored word, seen one at a time by `lb` and by halves by `lh`, in a little-endian memory. -/
def Obligations.MixedWidthAccessIsLittleEndian : Prop :=
  ∀ (s t : State) (rt rs rd base : Reg) (offset : Int) (k : Nat), s.MemWf → s.cfg.endian = .little → rd ≠ 0 →
    s.status = .ready → exec (.sw rt offset rs) s = .next t → t.status = .ready → k < 4 →
    u (t.readReg base) = u (eaOf s rs offset) →
    (Executes (.lb rd k base) t fun q => q.readReg rd = ((s.readReg rt).extractLsb' (8 * k) 8).signExtend 32) ∧
    (k % 2 = 0 → Executes (.lh rd k base) t fun q => q.readReg rd = ((s.readReg rt).extractLsb' (8 * k) 16).signExtend 32)

/-- R56: an aligned access is in range, and in the window, as a whole or not at all. -/
def Obligations.AlignedAccessesDoNotStraddle : Prop :=
  ∀ (c : Config) (ea : Word) (n k : Nat), c.wf = true → (n = 1 ∨ n = 2 ∨ n = 4) → u ea % n = 0 → k < n →
    (u ea + n ≤ c.dmemSize ↔ u ea + k < c.dmemSize) ∧ c.inWindow (u ea + k) = c.inWindow (u ea)

/-- The canonical form (of the model): memories that read alike are equal data, and writing keeps the form. -/
def Obligations.CanonicalMemoriesAreEqualData : Prop :=
  ∀ m n : Memory, m.wf = true → n.wf = true →
    (∀ a b, (m.write a b).wf = true ∧ (m.write a b).read a = b ∧ ∀ c, c ≠ a → (m.write a b).read c = m.read c) ∧
    ((∀ a, m.read a = n.read a) → m = n)

/-! ### Control transfer -/

/-- R167, R168. The decoded form's index `T` is the target the offset names. -/
def Obligations.BranchesCompareBits : Prop :=
  ∀ (s : State) (rs rt : Reg) (offset : Int), fitsSigned16 offset = true →
    let target := trunc32 (u s.pc + 1 + offset)
    let next := trunc32 (u s.pc + 1)
    (∀ T : Nat, T < 2 ^ 32 → offset = T - (u s.pc + 1) → u target = T) ∧
    (EncodedIn (.beq rs rt offset) (formatI 0x04 rs rt offset) 0x10000000 0xFC000000 ∧
      Executes (.beq rs rt offset) s fun t => s.JumpsTo t (if s.readReg rs = s.readReg rt then target else next)) ∧
    (EncodedIn (.bne rs rt offset) (formatI 0x05 rs rt offset) 0x14000000 0xFC000000 ∧
      Executes (.bne rs rt offset) s fun t => s.JumpsTo t (if s.readReg rs ≠ s.readReg rt then target else next))

/-- R169, R172, R173. -/
def Obligations.JumpsGoToTheirTarget : Prop :=
  (∀ (s : State) (index : Nat), index < 2 ^ 26 →
    (EncodedIn (.j index) (formatJ 0x02 index) 0x08000000 0xFC000000 ∧
      Executes (.j index) s fun t => s.JumpsTo t (BitVec.ofNat 32 index)) ∧
    (EncodedIn (.jal index) (formatJ 0x03 index) 0x0C000000 0xFC000000 ∧
      Executes (.jal index) s fun t => s.LinksTo t (BitVec.ofNat 32 index))) ∧
  ∀ (s : State) (rs : Reg), EncodedIn (.jr rs) (formatR rs 0 0 0 0x08) 0x00000008 0xFC1FFFFF ∧
    Executes (.jr rs) s fun t => s.JumpsTo t (s.readReg rs)

/-- D00's property T6: `jal` then `jr $ra` returns to the instruction after the `jal`. -/
def Obligations.JalThenJrReturns : Prop :=
  ∀ (s : State) (index : Nat),
    Executes (.jal index) s fun t => ∀ q, q.readReg 31 = t.readReg 31 →
      Executes (.jr 31) q fun r => r.pc = trunc32 (u s.pc + 1) ∧ r.readReg 31 = t.readReg 31

/-- R78(d), R166: a branch encoded for the label at index `T` goes to `T`. -/
def Obligations.BranchesReachTheirLabel : Prop :=
  ∀ (s : State) (rs rt : Reg) (target : Nat) (d : Int), target < 2 ^ 32 → branchOffset (u s.pc) target = some d →
    fitsSigned16 d = true ∧
    (s.readReg rs = s.readReg rt → Executes (.beq rs rt d) s fun t => u t.pc = target) ∧
    (s.readReg rs ≠ s.readReg rt → Executes (.bne rs rt d) s fun t => u t.pc = target)

/-! ### Rules of the whole machine -/

/-- Every instruction answers a next state, whatever the state: no instruction is refused or has no step. -/
def Obligations.EveryInstructionHasAStep : Prop := ∀ (i : Instr) (s : State), ∃ t, exec i s = .next t

/-- R29, R165: only `beq`, `bne`, `j`, `jal`, `jr` make `pc` differ from `pc + 1`, and a fault leaves it. -/
def Obligations.OnlyTransfersMoveThePc : Prop :=
  ∀ (i : Instr) (s t : State), s.status = .ready → exec i s = .next t →
    (kindOf i ≠ .transfer → t.status = .ready → t.pc = trunc32 (u s.pc + 1)) ∧ (t.status ≠ .ready → t.pc = s.pc)

/-- R25, R23: an instruction changes no general register but its destination, and never register 0. -/
def Obligations.OnlyTheDestinationIsWritten : Prop :=
  ∀ (i : Instr) (s t : State), exec i s = .next t →
    (∀ r, destOf i ≠ some r → t.readReg r = s.readReg r) ∧ (destOf i = some 0 → s.SameRegsBut t [])

/-- R33: HI and LO are written only by the multiplies and divides, and a division that faults leaves both. -/
def Obligations.OnlyMultiplyAndDivideWriteHiLo : Prop :=
  ∀ (i : Instr) (s t : State), s.status = .ready → exec i s = .next t →
    kindOf i ≠ .hilo ∨ t.status ≠ .ready → s.SameHiLo t

/-- R48: no instruction but the stores changes a byte of the data space. -/
def Obligations.OnlyStoresChangeMemory : Prop :=
  ∀ (i : Instr) (s t : State), exec i s = .next t → kindOf i ≠ .store → s.SameMemory t

/-- R37: a load or store that completes sets `LMA` to its effective address and width; nothing else changes it. -/
def Obligations.LmaFollowsCompletedAccesses : Prop :=
  ∀ (i : Instr) (s t : State), s.status = .ready → exec i s = .next t →
    ((kindOf i ≠ .load ∧ kindOf i ≠ .store) ∨ t.status ≠ .ready → t.lma = s.lma) ∧
    (t.status = .ready → ∀ (rt rs : Reg) (offset : Int),
      (i = .lw rt offset rs ∨ i = .sw rt offset rs → t.lma = some (eaOf s rs offset, .word)) ∧
      (i = .lh rt offset rs ∨ i = .sh rt offset rs → t.lma = some (eaOf s rs offset, .half)) ∧
      (i = .lb rt offset rs ∨ i = .sb rt offset rs → t.lma = some (eaOf s rs offset, .byte)))

/-- R40, R70, R74, R226: no step changes the program, the parameters or the breakpoint set. -/
def Obligations.NoStepChangesTheProgram : Prop :=
  ∀ s t : State, step s = .next t → t.imem = s.imem ∧ t.cfg = s.cfg ∧ t.breakpoints = s.breakpoints

/-- R41, R226, R257: the executor does not see the breakpoint set, nor which of the loaded controller states it is in: with
another set and another controller state that is not `Unloaded`, the step is the same up to these. `Unloaded` it does see (log
entry 5), and its own step halts the controller when it stops (log entry 16). -/
def Obligations.ExecutorIgnoresTheHost : Prop :=
  ∀ (s t : State) (c : Controller) (b : List Nat), s.status = .ready → c ≠ .unloaded → step s = .next t →
    step { s with controller := c, breakpoints := b } =
      .next { t with breakpoints := b, controller := if t.status = .ready then c else .halted }

/-! ### The debug controller -/

/-- R229 and the last paragraph of R223. The executor's own step halts the controller (log entry 16); a call that is not valid
gives no tag (log entry 15). -/
def Obligations.StepCallMovesTheController : Prop :=
  ∀ s : State,
    (s.controller.accepts = true → s.status = .ready → ∃ t, step s = .next t ∧
      s.stepCall = (if t.status = .ready then { t with controller := .paused } else t, some t.status.tag) ∧
      (t.status ≠ .ready → t.controller = .halted)) ∧
    (s.controller.accepts = false → s.stepCall = (s, none) ∧ (∀ fuel, s.runCall fuel = some (s, none)) ∧
      (∀ r v, s.setRegister r v = s) ∧ ∀ a v, s.setMemoryWord a v = s)

/-- R227: `run` is executor steps up to the first breakpoint or the end. Started at a reported breakpoint it passes over
that one. The controller is halted by the executor's own step (log entry 16); a run has fuel (log entry 15). -/
def Obligations.RunStopsAtBreakpointOrEnd : Prop :=
  ∀ (s : State) (fuel : Nat) (r : State × Option Tag), s.controller.accepts = true → s.status = .ready →
    s.runCall fuel = some r →
    let go := fun n => core.run n { s with controller := .running }
    ∃ (n : Nat) (t : State), n ≤ fuel ∧ go n = .next t ∧
      (∀ m, m < n → ∃ q, go m = .next q ∧ q.status = .ready ∧
        (q.atBreakpoint = false ∨ (m = 0 ∧ s.controller = .pausedAtBreakpoint))) ∧
      ((t.status = .ready ∧ t.atBreakpoint = true ∧ (n = 0 → s.controller ≠ .pausedAtBreakpoint) ∧
          r = ({ t with controller := .pausedAtBreakpoint }, some .breakpoint)) ∨
        (t.status ≠ .ready ∧ t.controller = .halted ∧ r = (t, some t.status.tag)))

/-- R230, where the call is valid. -/
def Obligations.SetRegisterWritesOneRegister : Prop :=
  ∀ (s : State) (v : Int), s.controller.accepts = true →
    (∀ r : Reg, let t := s.setRegister (.gpr r) v
      t.readReg r = (if r = 0 then 0 else trunc32 v) ∧ s.SameRegsBut t [r] ∧ t.pc = s.pc ∧ s.SameHiLo t ∧
        s.SameMemory t ∧ t.lma = s.lma ∧ s.SameSystem t) ∧
    s.setRegister .hi v = { s with hi := trunc32 v } ∧ s.setRegister .lo v = { s with lo := trunc32 v }

/-- R231, R232: a settable word is written and reads back; elsewhere the operation does nothing; the peripherals are never
reached. The big-endian bytes are the model's reading of R51 (log entry 10). -/
def Obligations.SetMemoryWordWritesPlainMemory : Prop :=
  ∀ (s : State) (addr : Word) (v : Int), s.MemWf → s.cfg.wf = true → s.controller.accepts = true →
    let t := s.setMemoryWord addr v
    (u addr % 4 = 0 ∧ u addr + 4 ≤ s.cfg.dmemSize ∧ s.cfg.inWindow (u addr) = false →
      t.getMemory addr 4 = some (wordBytes s.cfg.endian (trunc32 v)) ∧
      ∀ a, ¬ (u addr ≤ a ∧ a < u addr + 4) → t.dmem.read a = s.dmem.read a) ∧
    (¬ (u addr % 4 = 0 ∧ u addr + 4 ≤ s.cfg.dmemSize ∧ s.cfg.inWindow (u addr) = false) → t = s) ∧
    t.periph = s.periph ∧ s.SameRegsBut t [] ∧ s.SameHiLo t ∧ t.pc = s.pc ∧ t.lma = s.lma ∧ s.SameSystem t

/-- R226: the breakpoint set is replaced, in any state, and nothing else. -/
def Obligations.SetBreakpointsReplacesTheSet : Prop :=
  ∀ (s : State) (ns : List Nat), (∀ n, n ∈ (s.setBreakpoints ns).breakpoints ↔ n ∈ ns) ∧
    { s.setBreakpoints ns with breakpoints := s.breakpoints } = s

/-- R257: the state a program ends in does not depend on how the host divides the run into `step` and `run` calls, nor on
the breakpoints it sets on the way. -/
def Obligations.FinalStateIsTheProgramsOwn : Prop :=
  ∀ (s t q : State) (cs ds : List HostCall), s.status = .ready → s.calls cs = some t → s.calls ds = some q →
    t.status ≠ .ready → q.status ≠ .ready → { t with breakpoints := q.breakpoints } = q

/-! ### Pseudo-instructions -/

/-- R189 to R191: `move`, `li` and `la` are these instructions, and give the register its value and nothing else. -/
def Obligations.MoveAndConstantLowering : Prop :=
  ∀ (s : State) (rd rs : Reg) (imm : Int) (index : Nat),
    let does := fun (p : Pseudo) (is : List Instr) (v : Word) => p.lower index = some is ∧ (∀ i ∈ is, i.wf = true) ∧
      ∃ t, execAll is s = .next t ∧ t.readReg rd = (if rd = 0 then 0 else v) ∧ s.SameRegsBut t [rd] ∧
        t.pc = trunc32 (u s.pc + is.length) ∧ s.SameHiLo t ∧ s.SameMemory t ∧ t.lma = s.lma ∧ s.SameSystem t
    let constant := fun (n : Int) => if -32768 ≤ n ∧ n ≤ 32767 then [Instr.addiu rd 0 n]
      else [.lui rd (u (trunc32 n) / 65536), .ori rd rd (u (trunc32 n) % 65536)]
    does (.move rd rs) [.add rd rs 0] (s.readReg rs) ∧
    (-2 ^ 31 ≤ imm ∧ imm ≤ 2 ^ 32 - 1 → does (.li rd imm) (constant imm) (trunc32 imm)) ∧
    ∀ a : Nat, a < 2 ^ 32 → does (.la rd a) (constant a) (BitVec.ofNat 32 a)

/-- R192 to R195: the four branch pseudo-instructions are these pairs; what they do when executed at the index they were
lowered for. -/
def Obligations.CompareAndBranchLowering : Prop :=
  ∀ (s : State) (rs rt : Reg) (target : Nat), target < 2 ^ 32 →
    fitsSigned16 ((target : Int) - (u s.pc + 2)) = true →
    let d : Int := target - (u s.pc + 2)
    let a := sgn (s.readReg rs)
    let b := sgn (s.readReg rt)
    let does := fun (p : Pseudo) (is : List Instr) (less taken : Prop) => p.lower (u s.pc) = some is ∧
      ∃ t, execAll is s = .next t ∧ (less → t.readReg 1 = 1) ∧ (¬ less → t.readReg 1 = 0) ∧
        (taken → u t.pc = target) ∧ (¬ taken → t.pc = trunc32 (u s.pc + 2)) ∧ s.SameRegsBut t [1] ∧
        s.SameHiLo t ∧ s.SameMemory t ∧ t.lma = s.lma ∧ s.SameSystem t
    does (.blt rs rt target) [.slt 1 rs rt, .bne 1 0 d] (a < b) (a < b) ∧
    does (.bgt rs rt target) [.slt 1 rt rs, .bne 1 0 d] (b < a) (a > b) ∧
    does (.ble rs rt target) [.slt 1 rt rs, .beq 1 0 d] (b < a) (a ≤ b) ∧
    does (.bge rs rt target) [.slt 1 rs rt, .beq 1 0 d] (a < b) (a ≥ b)
end

