-- ==== Sys2Proof/Laws/Memory.lean ====
section
/-! SUPPORT. Byte memories: read after write, and the canonical form, which every write keeps and which makes equal memories
equal data. -/

namespace Sys2Proof.Machine.Memory

theorem read_push_same (a : Nat) (b : Byte) (m : Memory) (h : m.read a = 0) : (push a b m).read a = b := by
  unfold push
  split
  · next hb => simp [h, hb]
  · simp [read]

theorem read_push_other (a a' : Nat) (b : Byte) (m : Memory) (h : a' ≠ a) : (push a b m).read a' = m.read a' := by
  unfold push
  split
  · rfl
  · simp [read, h]

/-- Below every listed address nothing is listed. -/
theorem read_of_above {a a' : Nat} {m : Memory} (h : m.above a = true) (ha : a' ≤ a) : m.read a' = 0 := by
  induction m with
  | nil => rfl
  | cons c m ih =>
    simp only [above, List.all_cons, Bool.and_eq_true, decide_eq_true_eq] at h
    have : a' ≠ c.1 := by omega
    simpa [read, this] using ih h.2

theorem above_mono {a k : Nat} {m : Memory} (h : m.above k = true) (hak : a ≤ k) : m.above a = true := by
  simp only [above, List.all_eq_true, decide_eq_true_eq] at *
  exact fun c hc => Nat.lt_of_le_of_lt hak (h c hc)

theorem wf_cons {k : Nat} {v : Byte} {m : Memory} :
    wf ((k, v) :: m) = true ↔ v ≠ 0 ∧ m.above k = true ∧ m.wf = true := by
  simp [wf, and_assoc]

theorem above_push {a k : Nat} {b : Byte} {m : Memory} (h : m.above k = true) (hk : k < a) :
    (push a b m).above k = true := by
  unfold push
  split
  · exact h
  · simpa [above, hk] using h

theorem wf_push {a : Nat} {b : Byte} {m : Memory} (h : m.wf = true) (ha : m.above a = true) : (push a b m).wf = true := by
  unfold push
  split
  · exact h
  · next hb => exact wf_cons.2 ⟨hb, ha, h⟩

theorem above_write {a k : Nat} {b : Byte} {m : Memory} (h : m.above k = true) (hk : k < a) :
    (m.write a b).above k = true := by
  induction m with
  | nil => exact above_push h hk
  | cons c m ih =>
    obtain ⟨j, v⟩ := c
    have hj : k < j ∧ above k m = true := by simpa [above] using h
    simp only [write]
    split
    · exact above_push h hk
    · split
      · exact above_push hj.2 hk
      · have := ih hj.2
        simp only [above, List.all_cons, Bool.and_eq_true, decide_eq_true_eq] at this ⊢
        exact ⟨hj.1, this⟩

/-- Every write keeps the canonical form. -/
theorem wf_write {m : Memory} (h : m.wf = true) (a : Nat) (b : Byte) : (m.write a b).wf = true := by
  induction m with
  | nil => exact wf_push h rfl
  | cons c m ih =>
    obtain ⟨k, v⟩ := c
    obtain ⟨hv, hk, hm⟩ := wf_cons.1 h
    simp only [write]
    split
    · next hlt =>
      refine wf_push h ?_
      simp only [above, List.all_cons, Bool.and_eq_true, decide_eq_true_eq]
      exact ⟨hlt, above_mono hk (Nat.le_of_lt hlt)⟩
    · split
      · next heq => exact wf_push hm (heq ▸ hk)
      · exact wf_cons.2 ⟨hv, above_write hk (by omega), ih hm⟩

/-- Reading the byte just written. -/
theorem read_write_same {m : Memory} (h : m.wf = true) (a : Nat) (b : Byte) : (m.write a b).read a = b := by
  induction m with
  | nil => exact read_push_same a b [] rfl
  | cons c m ih =>
    obtain ⟨k, v⟩ := c
    obtain ⟨_, hk, hm⟩ := wf_cons.1 h
    simp only [write]
    split
    · next hlt =>
      refine read_push_same a b _ ?_
      have : a ≠ k := by omega
      simpa [read, this] using read_of_above hk (Nat.le_of_lt hlt)
    · split
      · next heq => exact read_push_same a b _ (heq ▸ read_of_above hk (Nat.le_refl _))
      · next hne => simpa [read, hne] using ih hm

/-- A write leaves every other byte alone. -/
theorem read_write_other (m : Memory) {a a' : Nat} (b : Byte) (h : a' ≠ a) : (m.write a b).read a' = m.read a' := by
  induction m with
  | nil => exact read_push_other a a' b [] h
  | cons c m ih =>
    obtain ⟨k, v⟩ := c
    simp only [write]
    split
    · exact read_push_other a a' b _ h
    · split
      · next heq =>
        have : a' ≠ k := heq ▸ h
        simpa [read, this] using read_push_other a a' b m h
      · simp [read, ih]

theorem mem_push {c : Host.Cell} {a : Nat} {b : Byte} {m : Memory} (h : c ∈ push a b m) : c = (a, b) ∨ c ∈ m := by
  unfold push at h
  split at h
  · exact .inr h
  · simpa using h

/-- The cells of a memory after a write: the one written, or one that was there. -/
theorem mem_write {c : Host.Cell} {m : Memory} {a : Nat} {b : Byte} (h : c ∈ m.write a b) : c = (a, b) ∨ c ∈ m := by
  induction m with
  | nil => exact mem_push h
  | cons d m ih =>
    obtain ⟨k, v⟩ := d
    simp only [write] at h
    split at h
    · exact mem_push h
    · split at h
      · exact (mem_push h).imp id (List.mem_cons_of_mem _)
      · rcases List.mem_cons.1 h with rfl | h
        · exact .inr (List.mem_cons_self ..)
        · exact (ih h).imp id (List.mem_cons_of_mem _)

end Sys2Proof.Machine.Memory
end

