-- ==== Sys2Proof/Laws/State.lean ====
section
/-! SUPPORT. The fields of a state after each update, and reading a register after it. -/

namespace Sys2Proof.Machine

section
variable (s : State)

@[simp] theorem setPc_regs (t : Word) : (s.setPc t).regs = s.regs := rfl
@[simp] theorem setPc_pc (t : Word) : (s.setPc t).pc = t := rfl
@[simp] theorem setPc_hi (t : Word) : (s.setPc t).hi = s.hi := rfl
@[simp] theorem setPc_lo (t : Word) : (s.setPc t).lo = s.lo := rfl
@[simp] theorem setPc_dmem (t : Word) : (s.setPc t).dmem = s.dmem := rfl
@[simp] theorem setPc_periph (t : Word) : (s.setPc t).periph = s.periph := rfl
@[simp] theorem setPc_status (t : Word) : (s.setPc t).status = s.status := rfl
@[simp] theorem setPc_lma (t : Word) : (s.setPc t).lma = s.lma := rfl
@[simp] theorem setPc_imem (t : Word) : (s.setPc t).imem = s.imem := rfl
@[simp] theorem setPc_breakpoints (t : Word) : (s.setPc t).breakpoints = s.breakpoints := rfl
@[simp] theorem setPc_controller (t : Word) : (s.setPc t).controller = s.controller := rfl
@[simp] theorem setPc_cfg (t : Word) : (s.setPc t).cfg = s.cfg := rfl
@[simp] theorem setPc_readReg (t : Word) (r : Reg) : (s.setPc t).readReg r = s.readReg r := rfl
@[simp] theorem setPc_dataByte (t : Word) (a : Nat) : (s.setPc t).dataByte a = s.dataByte a := rfl

@[simp] theorem advance_regs : (s.advance).regs = s.regs := rfl
@[simp] theorem advance_pc : (s.advance).pc = s.nextPc := rfl
@[simp] theorem advance_hi : (s.advance).hi = s.hi := rfl
@[simp] theorem advance_lo : (s.advance).lo = s.lo := rfl
@[simp] theorem advance_dmem : (s.advance).dmem = s.dmem := rfl
@[simp] theorem advance_periph : (s.advance).periph = s.periph := rfl
@[simp] theorem advance_status : (s.advance).status = s.status := rfl
@[simp] theorem advance_lma : (s.advance).lma = s.lma := rfl
@[simp] theorem advance_imem : (s.advance).imem = s.imem := rfl
@[simp] theorem advance_breakpoints : (s.advance).breakpoints = s.breakpoints := rfl
@[simp] theorem advance_controller : (s.advance).controller = s.controller := rfl
@[simp] theorem advance_cfg : (s.advance).cfg = s.cfg := rfl
@[simp] theorem advance_readReg (r : Reg) : (s.advance).readReg r = s.readReg r := rfl
@[simp] theorem advance_dataByte (a : Nat) : (s.advance).dataByte a = s.dataByte a := rfl

@[simp] theorem setHiLo_regs (h l : Word) : (s.setHiLo h l).regs = s.regs := rfl
@[simp] theorem setHiLo_pc (h l : Word) : (s.setHiLo h l).pc = s.pc := rfl
@[simp] theorem setHiLo_hi (h l : Word) : (s.setHiLo h l).hi = h := rfl
@[simp] theorem setHiLo_lo (h l : Word) : (s.setHiLo h l).lo = l := rfl
@[simp] theorem setHiLo_dmem (h l : Word) : (s.setHiLo h l).dmem = s.dmem := rfl
@[simp] theorem setHiLo_periph (h l : Word) : (s.setHiLo h l).periph = s.periph := rfl
@[simp] theorem setHiLo_status (h l : Word) : (s.setHiLo h l).status = s.status := rfl
@[simp] theorem setHiLo_lma (h l : Word) : (s.setHiLo h l).lma = s.lma := rfl
@[simp] theorem setHiLo_imem (h l : Word) : (s.setHiLo h l).imem = s.imem := rfl
@[simp] theorem setHiLo_breakpoints (h l : Word) : (s.setHiLo h l).breakpoints = s.breakpoints := rfl
@[simp] theorem setHiLo_controller (h l : Word) : (s.setHiLo h l).controller = s.controller := rfl
@[simp] theorem setHiLo_cfg (h l : Word) : (s.setHiLo h l).cfg = s.cfg := rfl
@[simp] theorem setHiLo_readReg (h l : Word) (r : Reg) : (s.setHiLo h l).readReg r = s.readReg r := rfl
@[simp] theorem setHiLo_dataByte (h l : Word) (a : Nat) : (s.setHiLo h l).dataByte a = s.dataByte a := rfl

@[simp] theorem takeFault_regs (r : Raised) : (s.takeFault r).regs = s.regs := rfl
@[simp] theorem takeFault_pc (r : Raised) : (s.takeFault r).pc = s.pc := rfl
@[simp] theorem takeFault_hi (r : Raised) : (s.takeFault r).hi = s.hi := rfl
@[simp] theorem takeFault_lo (r : Raised) : (s.takeFault r).lo = s.lo := rfl
@[simp] theorem takeFault_dmem (r : Raised) : (s.takeFault r).dmem = s.dmem := rfl
@[simp] theorem takeFault_periph (r : Raised) : (s.takeFault r).periph = s.periph := rfl
@[simp] theorem takeFault_status (r : Raised) : (s.takeFault r).status = .fault r.kind := rfl
@[simp] theorem takeFault_lma (r : Raised) : (s.takeFault r).lma = s.lma := rfl
@[simp] theorem takeFault_imem (r : Raised) : (s.takeFault r).imem = s.imem := rfl
@[simp] theorem takeFault_breakpoints (r : Raised) : (s.takeFault r).breakpoints = s.breakpoints := rfl
@[simp] theorem takeFault_controller (r : Raised) : (s.takeFault r).controller = .halted := rfl
@[simp] theorem takeFault_cfg (r : Raised) : (s.takeFault r).cfg = s.cfg := rfl
@[simp] theorem takeFault_readReg (r : Raised) (q : Reg) : (s.takeFault r).readReg q = s.readReg q := rfl
@[simp] theorem takeFault_dataByte (r : Raised) (a : Nat) : (s.takeFault r).dataByte a = s.dataByte a := rfl

@[simp] theorem terminate_regs : (s.terminate).regs = s.regs := rfl
@[simp] theorem terminate_pc : (s.terminate).pc = s.pc := rfl
@[simp] theorem terminate_hi : (s.terminate).hi = s.hi := rfl
@[simp] theorem terminate_lo : (s.terminate).lo = s.lo := rfl
@[simp] theorem terminate_dmem : (s.terminate).dmem = s.dmem := rfl
@[simp] theorem terminate_periph : (s.terminate).periph = s.periph := rfl
@[simp] theorem terminate_status : (s.terminate).status = .terminated := rfl
@[simp] theorem terminate_lma : (s.terminate).lma = s.lma := rfl
@[simp] theorem terminate_imem : (s.terminate).imem = s.imem := rfl
@[simp] theorem terminate_breakpoints : (s.terminate).breakpoints = s.breakpoints := rfl
@[simp] theorem terminate_controller : (s.terminate).controller = .halted := rfl
@[simp] theorem terminate_cfg : (s.terminate).cfg = s.cfg := rfl
@[simp] theorem terminate_readReg (r : Reg) : (s.terminate).readReg r = s.readReg r := rfl
@[simp] theorem terminate_dataByte (a : Nat) : (s.terminate).dataByte a = s.dataByte a := rfl

@[simp] theorem noteAccess_regs (ea : Word) (n : Size) : (s.noteAccess ea n).regs = s.regs := rfl
@[simp] theorem noteAccess_pc (ea : Word) (n : Size) : (s.noteAccess ea n).pc = s.pc := rfl
@[simp] theorem noteAccess_hi (ea : Word) (n : Size) : (s.noteAccess ea n).hi = s.hi := rfl
@[simp] theorem noteAccess_lo (ea : Word) (n : Size) : (s.noteAccess ea n).lo = s.lo := rfl
@[simp] theorem noteAccess_dmem (ea : Word) (n : Size) : (s.noteAccess ea n).dmem = s.dmem := rfl
@[simp] theorem noteAccess_periph (ea : Word) (n : Size) : (s.noteAccess ea n).periph = s.periph := rfl
@[simp] theorem noteAccess_status (ea : Word) (n : Size) : (s.noteAccess ea n).status = s.status := rfl
@[simp] theorem noteAccess_lma (ea : Word) (n : Size) : (s.noteAccess ea n).lma = some (ea, n) := rfl
@[simp] theorem noteAccess_imem (ea : Word) (n : Size) : (s.noteAccess ea n).imem = s.imem := rfl
@[simp] theorem noteAccess_breakpoints (ea : Word) (n : Size) : (s.noteAccess ea n).breakpoints = s.breakpoints := rfl
@[simp] theorem noteAccess_controller (ea : Word) (n : Size) : (s.noteAccess ea n).controller = s.controller := rfl
@[simp] theorem noteAccess_cfg (ea : Word) (n : Size) : (s.noteAccess ea n).cfg = s.cfg := rfl
@[simp] theorem noteAccess_readReg (ea : Word) (n : Size) (r : Reg) : (s.noteAccess ea n).readReg r = s.readReg r := rfl
@[simp] theorem noteAccess_dataByte (ea : Word) (n : Size) (a : Nat) : (s.noteAccess ea n).dataByte a = s.dataByte a := rfl

@[simp] theorem writeReg_pc (r : Reg) (v : Word) : (s.writeReg r v).pc = s.pc := by
  unfold State.writeReg; split <;> rfl
@[simp] theorem writeReg_hi (r : Reg) (v : Word) : (s.writeReg r v).hi = s.hi := by
  unfold State.writeReg; split <;> rfl
@[simp] theorem writeReg_lo (r : Reg) (v : Word) : (s.writeReg r v).lo = s.lo := by
  unfold State.writeReg; split <;> rfl
@[simp] theorem writeReg_dmem (r : Reg) (v : Word) : (s.writeReg r v).dmem = s.dmem := by
  unfold State.writeReg; split <;> rfl
@[simp] theorem writeReg_periph (r : Reg) (v : Word) : (s.writeReg r v).periph = s.periph := by
  unfold State.writeReg; split <;> rfl
@[simp] theorem writeReg_status (r : Reg) (v : Word) : (s.writeReg r v).status = s.status := by
  unfold State.writeReg; split <;> rfl
@[simp] theorem writeReg_lma (r : Reg) (v : Word) : (s.writeReg r v).lma = s.lma := by
  unfold State.writeReg; split <;> rfl
@[simp] theorem writeReg_imem (r : Reg) (v : Word) : (s.writeReg r v).imem = s.imem := by
  unfold State.writeReg; split <;> rfl
@[simp] theorem writeReg_breakpoints (r : Reg) (v : Word) : (s.writeReg r v).breakpoints = s.breakpoints := by
  unfold State.writeReg; split <;> rfl
@[simp] theorem writeReg_controller (r : Reg) (v : Word) : (s.writeReg r v).controller = s.controller := by
  unfold State.writeReg; split <;> rfl
@[simp] theorem writeReg_cfg (r : Reg) (v : Word) : (s.writeReg r v).cfg = s.cfg := by
  unfold State.writeReg; split <;> rfl
@[simp] theorem writeReg_dataByte (r : Reg) (v : Word) (a : Nat) : (s.writeReg r v).dataByte a = s.dataByte a := by
  simp [State.dataByte]

@[simp] theorem setDataByte_regs (a : Nat) (b : Byte) : (s.setDataByte a b).regs = s.regs := by
  unfold State.setDataByte; split <;> rfl
@[simp] theorem setDataByte_pc (a : Nat) (b : Byte) : (s.setDataByte a b).pc = s.pc := by
  unfold State.setDataByte; split <;> rfl
@[simp] theorem setDataByte_hi (a : Nat) (b : Byte) : (s.setDataByte a b).hi = s.hi := by
  unfold State.setDataByte; split <;> rfl
@[simp] theorem setDataByte_lo (a : Nat) (b : Byte) : (s.setDataByte a b).lo = s.lo := by
  unfold State.setDataByte; split <;> rfl
@[simp] theorem setDataByte_status (a : Nat) (b : Byte) : (s.setDataByte a b).status = s.status := by
  unfold State.setDataByte; split <;> rfl
@[simp] theorem setDataByte_lma (a : Nat) (b : Byte) : (s.setDataByte a b).lma = s.lma := by
  unfold State.setDataByte; split <;> rfl
@[simp] theorem setDataByte_imem (a : Nat) (b : Byte) : (s.setDataByte a b).imem = s.imem := by
  unfold State.setDataByte; split <;> rfl
@[simp] theorem setDataByte_breakpoints (a : Nat) (b : Byte) : (s.setDataByte a b).breakpoints = s.breakpoints := by
  unfold State.setDataByte; split <;> rfl
@[simp] theorem setDataByte_controller (a : Nat) (b : Byte) : (s.setDataByte a b).controller = s.controller := by
  unfold State.setDataByte; split <;> rfl
@[simp] theorem setDataByte_cfg (a : Nat) (b : Byte) : (s.setDataByte a b).cfg = s.cfg := by
  unfold State.setDataByte; split <;> rfl
@[simp] theorem setDataByte_readReg (a : Nat) (b : Byte) (r : Reg) : (s.setDataByte a b).readReg r = s.readReg r := by
  simp [State.readReg]

end

@[simp] theorem setDataBytes_regs (s : State) (a : Nat) (bs : List Byte) : (s.setDataBytes a bs).regs = s.regs := by
  induction bs generalizing s a with
  | nil => rfl
  | cons b bs ih => simp [State.setDataBytes, ih]
@[simp] theorem setDataBytes_pc (s : State) (a : Nat) (bs : List Byte) : (s.setDataBytes a bs).pc = s.pc := by
  induction bs generalizing s a with
  | nil => rfl
  | cons b bs ih => simp [State.setDataBytes, ih]
@[simp] theorem setDataBytes_hi (s : State) (a : Nat) (bs : List Byte) : (s.setDataBytes a bs).hi = s.hi := by
  induction bs generalizing s a with
  | nil => rfl
  | cons b bs ih => simp [State.setDataBytes, ih]
@[simp] theorem setDataBytes_lo (s : State) (a : Nat) (bs : List Byte) : (s.setDataBytes a bs).lo = s.lo := by
  induction bs generalizing s a with
  | nil => rfl
  | cons b bs ih => simp [State.setDataBytes, ih]
@[simp] theorem setDataBytes_status (s : State) (a : Nat) (bs : List Byte) : (s.setDataBytes a bs).status = s.status := by
  induction bs generalizing s a with
  | nil => rfl
  | cons b bs ih => simp [State.setDataBytes, ih]
@[simp] theorem setDataBytes_lma (s : State) (a : Nat) (bs : List Byte) : (s.setDataBytes a bs).lma = s.lma := by
  induction bs generalizing s a with
  | nil => rfl
  | cons b bs ih => simp [State.setDataBytes, ih]
@[simp] theorem setDataBytes_imem (s : State) (a : Nat) (bs : List Byte) : (s.setDataBytes a bs).imem = s.imem := by
  induction bs generalizing s a with
  | nil => rfl
  | cons b bs ih => simp [State.setDataBytes, ih]
@[simp] theorem setDataBytes_breakpoints (s : State) (a : Nat) (bs : List Byte) : (s.setDataBytes a bs).breakpoints = s.breakpoints := by
  induction bs generalizing s a with
  | nil => rfl
  | cons b bs ih => simp [State.setDataBytes, ih]
@[simp] theorem setDataBytes_controller (s : State) (a : Nat) (bs : List Byte) : (s.setDataBytes a bs).controller = s.controller := by
  induction bs generalizing s a with
  | nil => rfl
  | cons b bs ih => simp [State.setDataBytes, ih]
@[simp] theorem setDataBytes_cfg (s : State) (a : Nat) (bs : List Byte) : (s.setDataBytes a bs).cfg = s.cfg := by
  induction bs generalizing s a with
  | nil => rfl
  | cons b bs ih => simp [State.setDataBytes, ih]
@[simp] theorem setDataBytes_readReg (s : State) (a : Nat) (bs : List Byte) (r : Reg) :
    (s.setDataBytes a bs).readReg r = s.readReg r := by
  simp [State.readReg]

/-! ### Register 0 (R23) -/

@[simp] theorem readReg_zero (s : State) : s.readReg 0 = 0 := rfl

@[simp] theorem writeReg_zero (s : State) (v : Word) : s.writeReg 0 v = s := rfl

theorem readReg_writeReg_same (s : State) {r : Reg} (v : Word) (h : r ≠ 0) : (s.writeReg r v).readReg r = v := by
  simp [State.readReg, State.writeReg, h]

theorem readReg_writeReg_other (s : State) {r q : Reg} (v : Word) (h : q ≠ r) :
    (s.writeReg r v).readReg q = s.readReg q := by
  unfold State.readReg State.writeReg
  by_cases hq : q = 0
  · simp [hq]
  · by_cases hr : r = 0
    · simp [hq, hr]
    · have : (r : Nat) ≠ q := fun e => h (Fin.ext e.symm)
      simp [hq, hr, Vector.getElem_set_ne, this]

/-- What reading a register gives after a write. -/
theorem readReg_writeReg (s : State) (r q : Reg) (v : Word) :
    (s.writeReg r v).readReg q = if q = r then (if r = 0 then 0 else v) else s.readReg q := by
  by_cases h : q = r
  · subst h
    by_cases h0 : q = 0
    · subst h0; simp
    · simp [readReg_writeReg_same, h0]
  · simp [readReg_writeReg_other, h]

/-- The cell of register 0 is never written. -/
theorem writeReg_cell_zero (s : State) (r : Reg) (v : Word) : (s.writeReg r v).regs[0] = s.regs[0] := by
  unfold State.writeReg
  split
  · rfl
  · next h =>
    have : (r : Nat) ≠ 0 := fun e => h (Fin.ext e)
    simp [Vector.getElem_set_ne, this]

end Sys2Proof.Machine
end

