-- ==== Sys2Proof/Laws/Data.lean ====
section
/-! SUPPORT. The data space: what one byte, several bytes, a read and a write do, once each. -/

namespace Sys2Proof.Machine

theorem setDataByte_memWf {s : State} (h : s.MemWf) (a : Nat) (b : Byte) : (s.setDataByte a b).MemWf := by
  unfold State.setDataByte
  split
  · exact ⟨h.1, Memory.wf_write h.2 a b⟩
  · exact ⟨Memory.wf_write h.1 a b, h.2⟩

theorem setDataBytes_memWf {s : State} (h : s.MemWf) (a : Nat) (bs : List Byte) : (s.setDataBytes a bs).MemWf := by
  induction bs generalizing s a with
  | nil => exact h
  | cons b bs ih => exact ih (setDataByte_memWf h a b) (a + 1)

theorem dataByte_setDataByte_same {s : State} (h : s.MemWf) (a : Nat) (b : Byte) : (s.setDataByte a b).dataByte a = b := by
  unfold State.dataByte
  rw [setDataByte_cfg]
  unfold State.setDataByte
  split
  · exact Memory.read_write_same h.2 a b
  · exact Memory.read_write_same h.1 a b

/-- Storing a byte leaves every byte of either memory alone but the one it is routed to. -/
theorem setDataByte_read_other (s : State) {a a' : Nat} (b : Byte) (h : a' ≠ a) :
    (s.setDataByte a b).dmem.read a' = s.dmem.read a' ∧ (s.setDataByte a b).periph.read a' = s.periph.read a' := by
  unfold State.setDataByte
  split
  · exact ⟨rfl, Memory.read_write_other _ b h⟩
  · exact ⟨Memory.read_write_other _ b h, rfl⟩

theorem dataByte_setDataByte_other (s : State) {a a' : Nat} (b : Byte) (h : a' ≠ a) :
    (s.setDataByte a b).dataByte a' = s.dataByte a' := by
  unfold State.dataByte
  rw [setDataByte_cfg, (setDataByte_read_other s b h).1, (setDataByte_read_other s b h).2]

/-- Storing bytes leaves every byte of either memory outside them alone. -/
theorem setDataBytes_read_other (s : State) (a : Nat) (bs : List Byte) {a' : Nat} (h : ¬ (a ≤ a' ∧ a' < a + bs.length)) :
    (s.setDataBytes a bs).dmem.read a' = s.dmem.read a' ∧ (s.setDataBytes a bs).periph.read a' = s.periph.read a' := by
  induction bs generalizing s a with
  | nil => exact ⟨rfl, rfl⟩
  | cons b bs ih =>
    simp only [List.length_cons] at h
    have hne : a' ≠ a := by omega
    have := ih (s.setDataByte a b) (a + 1) (by omega)
    simpa [State.setDataBytes, setDataByte_read_other s b hne] using this

theorem dataByte_setDataBytes_other (s : State) (a : Nat) (bs : List Byte) {a' : Nat}
    (h : ¬ (a ≤ a' ∧ a' < a + bs.length)) : (s.setDataBytes a bs).dataByte a' = s.dataByte a' := by
  unfold State.dataByte
  rw [setDataBytes_cfg, (setDataBytes_read_other s a bs h).1, (setDataBytes_read_other s a bs h).2]

/-- Each byte stored is read back at its address. -/
theorem dataByte_setDataBytes {s : State} (h : s.MemWf) (a : Nat) (bs : List Byte) {k : Nat} (hk : k < bs.length) :
    some ((s.setDataBytes a bs).dataByte (a + k)) = bs[k]? := by
  induction bs generalizing s a k with
  | nil => simp at hk
  | cons b bs ih =>
    simp only [State.setDataBytes]
    cases k with
    | zero =>
      rw [dataByte_setDataBytes_other _ _ _ (by omega)]
      simp [dataByte_setDataByte_same h]
    | succ k =>
      have := ih (setDataByte_memWf h a b) (a + 1) (k := k) (by simpa using hk)
      simpa [Nat.add_assoc, Nat.add_comm 1 k] using this

/-- `DMEM` is never written inside the window, `PERIPH` never outside it (R66). -/
theorem setDataBytes_routed (s : State) (a : Nat) (bs : List Byte) (a' : Nat) :
    (s.cfg.inWindow a' = true → (s.setDataBytes a bs).dmem.read a' = s.dmem.read a') ∧
      (s.cfg.inWindow a' = false → (s.setDataBytes a bs).periph.read a' = s.periph.read a') := by
  induction bs generalizing s a with
  | nil => exact ⟨fun _ => rfl, fun _ => rfl⟩
  | cons b bs ih =>
    obtain ⟨h1, h2⟩ := ih (s.setDataByte a b) (a + 1)
    rw [setDataByte_cfg] at h1 h2
    simp only [State.setDataBytes]
    by_cases e : a' = a
    · subst e
      refine ⟨fun h => ?_, fun h => ?_⟩
      · rw [h1 h]; simp [State.setDataByte, h]
      · rw [h2 h]; simp [State.setDataByte, h]
    · obtain ⟨o1, o2⟩ := setDataByte_read_other s b e
      exact ⟨fun h => (h1 h).trans o1, fun h => (h2 h).trans o2⟩

/-- The cells after a store: those there before, and those of the range written. -/
theorem setDataBytes_cells (s : State) (a : Nat) (bs : List Byte) :
    (∀ c ∈ (s.setDataBytes a bs).dmem, c ∈ s.dmem ∨ (a ≤ c.1 ∧ c.1 < a + bs.length ∧ s.cfg.inWindow c.1 = false)) ∧
      ∀ c ∈ (s.setDataBytes a bs).periph, c ∈ s.periph ∨ s.cfg.inWindow c.1 = true := by
  induction bs generalizing s a with
  | nil => exact ⟨fun c h => .inl h, fun c h => .inl h⟩
  | cons b bs ih =>
    obtain ⟨h1, h2⟩ := ih (s.setDataByte a b) (a + 1)
    simp only [setDataByte_cfg] at h1 h2
    simp only [State.setDataBytes, List.length_cons]
    refine ⟨fun c hc => ?_, fun c hc => ?_⟩
    · rcases h1 c hc with h | h
      · unfold State.setDataByte at h
        split at h
        · exact .inl h
        · next hw =>
          rcases Memory.mem_write h with rfl | h
          · exact .inr ⟨Nat.le_refl _, by simp, by simpa using hw⟩
          · exact .inl h
      · exact .inr ⟨by omega, by omega, h.2.2⟩
    · rcases h2 c hc with h | h
      · unfold State.setDataByte at h
        split at h
        · next hw =>
          rcases Memory.mem_write h with rfl | h
          · exact .inr hw
          · exact .inl h
        · exact .inl h
      · exact .inr h

/-! ### Bytes and values -/

@[simp] theorem splitBytes_length (v : Word) (n : Nat) : (splitBytes v n).length = n := by
  induction n generalizing v with
  | zero => rfl
  | succ n ih => simp [splitBytes, ih]

@[simp] theorem inOrder_length (e : Endian) (bs : List Byte) : (inOrder e bs).length = bs.length := by
  cases e <;> simp [inOrder]

theorem inOrder_inOrder (e : Endian) (bs : List Byte) : inOrder e (inOrder e bs) = bs := by
  cases e <;> simp [inOrder]

/-- The bytes split off a word join to its low bits. -/
theorem joinBytes_splitBytes (v : Word) (n : Nat) : joinBytes (splitBytes v n) = u v % 2 ^ (8 * n) := by
  induction n generalizing v with
  | zero => simp [splitBytes, joinBytes, Nat.mod_one]
  | succ n ih =>
    simp only [splitBytes, joinBytes, ih, u, BitVec.extractLsb'_toNat, BitVec.toNat_ushiftRight,
      Nat.shiftRight_eq_div_pow]
    have e : 2 ^ (8 * (n + 1)) = 256 * 2 ^ (8 * n) := by rw [Nat.mul_add, Nat.pow_add, Nat.mul_comm]
    rw [e, Nat.mod_mul]
    simp

theorem dataBytes_length (s : State) (a n : Nat) : (s.dataBytes a n).length = n := by
  induction n generalizing a with
  | zero => rfl
  | succ n ih => simp [State.dataBytes, ih]

/-- The bytes just stored are the bytes read. -/
theorem dataBytes_setDataBytes {s : State} (h : s.MemWf) (a : Nat) (bs : List Byte) :
    (s.setDataBytes a bs).dataBytes a bs.length = bs := by
  induction bs generalizing s a with
  | nil => rfl
  | cons b bs ih =>
    simp only [State.setDataBytes, List.length_cons, State.dataBytes]
    rw [dataByte_setDataBytes_other _ _ _ (by omega), dataByte_setDataByte_same h, ih (setDataByte_memWf h a b)]

/-! ### The access primitives -/

/-- An access passes the checks exactly when it is aligned and in range, whatever the order of the checks. -/
theorem checkAccess_eq_none {c : Config} {ea : Word} {n : Size} :
    checkAccess c ea n = none ↔ misaligned ea n = false ∧ outOfRange c ea n = false := by
  unfold checkAccess
  cases c.faultOrder <;> cases misaligned ea n <;> cases outOfRange c ea n <;> simp

/-- What a check can raise. -/
theorem checkAccess_eq_some {c : Config} {ea : Word} {n : Size} {r : Raised} (h : checkAccess c ea n = some r) :
    (r = .misalignedAccess ea ∧ misaligned ea n = true) ∨ (r = .memoryOutOfRange ea ∧ outOfRange c ea n = true) := by
  unfold checkAccess at h
  cases hf : c.faultOrder <;> cases hm : misaligned ea n <;> cases ho : outOfRange c ea n <;>
    simp [hf, hm, ho] at h <;> simp [h]

/-- A read that passes the checks. -/
theorem memRead_ok {s : State} {ea : Word} {n : Size} (h : checkAccess s.cfg ea n = none) :
    s.memRead ea n = .ok (joinBytes (inOrder s.cfg.endian (s.dataBytes (u ea) n.bytes)), s.noteAccess ea n) := by
  simp [State.memRead, h]

theorem memRead_error {s : State} {ea : Word} {n : Size} {r : Raised} (h : checkAccess s.cfg ea n = some r) :
    s.memRead ea n = .error r := by
  simp [State.memRead, h]

/-- A write that passes the checks. -/
theorem memWrite_ok {s : State} {ea : Word} {n : Size} (v : Word) (h : checkAccess s.cfg ea n = none) :
    s.memWrite ea n v =
      .ok ((s.setDataBytes (u ea) (inOrder s.cfg.endian (splitBytes v n.bytes))).noteAccess ea n) := by
  simp [State.memWrite, h]

theorem memWrite_error {s : State} {ea : Word} {n : Size} (v : Word) {r : Raised} (h : checkAccess s.cfg ea n = some r) :
    s.memWrite ea n v = .error r := by
  simp [State.memWrite, h]

end Sys2Proof.Machine
end

