-- ==== Sys2Proof/Laws/Encoding.lean ====
section
/-! SUPPORT. The fields of the words the encoder builds (R80 to R82), and that an operand in range survives its field (R78). -/

namespace Sys2Proof

theorem regBits_toFin (r : Reg) : (regBits r).toFin = r := rfl

/-- Concatenation as a number: the high part times a power, plus the low part. -/
theorem append_toNat {n m : Nat} (a : BitVec n) (b : BitVec m) : (a ++ b).toNat = a.toNat * 2 ^ m + b.toNat := by
  rw [BitVec.toNat_append, Nat.shiftLeft_eq, Nat.mul_comm, ← Nat.two_pow_add_eq_or_of_lt b.isLt]

theorem wordR_toNat (rs rt rd : Reg) (sh : BitVec 5) (f : BitVec 6) :
    (wordR rs rt rd sh f).toNat =
      rs.val * 2 ^ 21 + rt.val * 2 ^ 16 + rd.val * 2 ^ 11 + sh.toNat * 2 ^ 6 + f.toNat := by
  simp only [wordR, regBits, append_toNat, BitVec.toNat_ofFin, BitVec.toNat_ofNat]
  omega

theorem wordI_toNat (op : BitVec 6) (rs rt : Reg) (imm : BitVec 16) :
    (wordI op rs rt imm).toNat = op.toNat * 2 ^ 26 + rs.val * 2 ^ 21 + rt.val * 2 ^ 16 + imm.toNat := by
  simp only [wordI, regBits, append_toNat, BitVec.toNat_ofFin]
  omega

theorem wordJ_toNat (op : BitVec 6) (index : BitVec 26) : (wordJ op index).toNat = op.toNat * 2 ^ 26 + index.toNat :=
  append_toNat op index

section
variable (rs rt rd : Reg) (sh : BitVec 5) (f : BitVec 6)

@[simp] theorem opOf_wordR : opOf (wordR rs rt rd sh f) = 0 := by
  have hs := sh.isLt; have hf := f.isLt
  apply BitVec.eq_of_toNat_eq
  simp only [opOf, BitVec.extractLsb'_toNat, wordR_toNat, Nat.shiftRight_eq_div_pow, BitVec.ofNat_eq_ofNat, BitVec.toNat_ofNat]
  omega

@[simp] theorem rsOf_wordR : rsOf (wordR rs rt rd sh f) = rs := by
  have hs := sh.isLt; have hf := f.isLt
  apply Fin.ext
  simp only [rsOf, BitVec.val_toFin, BitVec.extractLsb'_toNat, wordR_toNat, Nat.shiftRight_eq_div_pow]
  omega

@[simp] theorem rtOf_wordR : rtOf (wordR rs rt rd sh f) = rt := by
  have hs := sh.isLt; have hf := f.isLt
  apply Fin.ext
  simp only [rtOf, BitVec.val_toFin, BitVec.extractLsb'_toNat, wordR_toNat, Nat.shiftRight_eq_div_pow]
  omega

@[simp] theorem rdOf_wordR : rdOf (wordR rs rt rd sh f) = rd := by
  have hs := sh.isLt; have hf := f.isLt
  apply Fin.ext
  simp only [rdOf, BitVec.val_toFin, BitVec.extractLsb'_toNat, wordR_toNat, Nat.shiftRight_eq_div_pow]
  omega

@[simp] theorem shamtOf_wordR : shamtOf (wordR rs rt rd sh f) = sh := by
  have hs := sh.isLt; have hf := f.isLt
  apply BitVec.eq_of_toNat_eq
  simp only [shamtOf, BitVec.extractLsb'_toNat, wordR_toNat, Nat.shiftRight_eq_div_pow]
  omega

@[simp] theorem functOf_wordR : functOf (wordR rs rt rd sh f) = f := by
  have hs := sh.isLt; have hf := f.isLt
  apply BitVec.eq_of_toNat_eq
  simp only [functOf, BitVec.extractLsb'_toNat, wordR_toNat, Nat.shiftRight_eq_div_pow]
  omega

end

section
variable (op : BitVec 6) (rs rt : Reg) (imm : BitVec 16)

@[simp] theorem opOf_wordI : opOf (wordI op rs rt imm) = op := by
  have hi := imm.isLt; have ho := op.isLt
  apply BitVec.eq_of_toNat_eq
  simp only [opOf, BitVec.extractLsb'_toNat, wordI_toNat, Nat.shiftRight_eq_div_pow]
  omega

@[simp] theorem rsOf_wordI : rsOf (wordI op rs rt imm) = rs := by
  have hi := imm.isLt
  apply Fin.ext
  simp only [rsOf, BitVec.val_toFin, BitVec.extractLsb'_toNat, wordI_toNat, Nat.shiftRight_eq_div_pow]
  omega

@[simp] theorem rtOf_wordI : rtOf (wordI op rs rt imm) = rt := by
  have hi := imm.isLt
  apply Fin.ext
  simp only [rtOf, BitVec.val_toFin, BitVec.extractLsb'_toNat, wordI_toNat, Nat.shiftRight_eq_div_pow]
  omega

@[simp] theorem imm16Of_wordI : imm16Of (wordI op rs rt imm) = imm := by
  have hi := imm.isLt
  apply BitVec.eq_of_toNat_eq
  simp only [imm16Of, BitVec.extractLsb'_toNat, wordI_toNat, Nat.shiftRight_eq_div_pow]
  omega

end

@[simp] theorem opOf_wordJ (op : BitVec 6) (index : BitVec 26) : opOf (wordJ op index) = op := by
  have hi := index.isLt; have ho := op.isLt
  apply BitVec.eq_of_toNat_eq
  simp only [opOf, BitVec.extractLsb'_toNat, wordJ_toNat, Nat.shiftRight_eq_div_pow]
  omega

@[simp] theorem index26Of_wordJ (op : BitVec 6) (index : BitVec 26) : index26Of (wordJ op index) = index := by
  have hi := index.isLt
  apply BitVec.eq_of_toNat_eq
  simp only [index26Of, BitVec.extractLsb'_toNat, wordJ_toNat, Nat.shiftRight_eq_div_pow]
  omega

/-! ### Operands in range survive their field -/

theorem fitsSigned16_iff {v : Int} : fitsSigned16 v = true ↔ -32768 ≤ v ∧ v ≤ 32767 := by simp [fitsSigned16]

theorem fitsUnsigned16_iff {v : Nat} : fitsUnsigned16 v = true ↔ v ≤ 65535 := by simp [fitsUnsigned16]

theorem fitsShamt_iff {v : Nat} : fitsShamt v = true ↔ v ≤ 31 := by simp [fitsShamt]

theorem fitsIndex26_iff {v : Nat} : fitsIndex26 v = true ↔ v < 2 ^ 26 := by simp [fitsIndex26]

theorem signedField_toInt {v : Int} (h : fitsSigned16 v = true) : (signedField v).toInt = v := by
  rw [fitsSigned16_iff] at h
  rw [signedField, BitVec.toInt_ofInt, Int.bmod_eq_of_le_mul_two] <;> omega

theorem unsignedField_toNat {v : Nat} (h : fitsUnsigned16 v = true) : (unsignedField v).toNat = v := by
  rw [fitsUnsigned16_iff] at h
  simp only [unsignedField, BitVec.toNat_ofNat]
  omega

theorem shamtField_toNat {v : Nat} (h : fitsShamt v = true) : (shamtField v).toNat = v := by
  rw [fitsShamt_iff] at h
  simp only [shamtField, BitVec.toNat_ofNat]
  omega

theorem indexField_toNat {v : Nat} (h : fitsIndex26 v = true) : (indexField v).toNat = v := by
  rw [fitsIndex26_iff] at h
  simp only [indexField, BitVec.toNat_ofNat]
  omega

/-- The word rebuilt from its fields, R format. -/
theorem wordR_of_fields {w : Word} (h : opOf w = 0) : wordR (rsOf w) (rtOf w) (rdOf w) (shamtOf w) (functOf w) = w := by
  have hw := w.isLt
  have h0 := congrArg BitVec.toNat h
  apply BitVec.eq_of_toNat_eq
  simp only [opOf, BitVec.extractLsb'_toNat, Nat.shiftRight_eq_div_pow, BitVec.ofNat_eq_ofNat, BitVec.toNat_ofNat] at h0
  simp only [wordR_toNat, rsOf, rtOf, rdOf, shamtOf, functOf, BitVec.val_toFin, BitVec.extractLsb'_toNat,
    Nat.shiftRight_eq_div_pow]
  omega

/-- The word rebuilt from its fields, I format. -/
theorem wordI_of_fields (w : Word) : wordI (opOf w) (rsOf w) (rtOf w) (imm16Of w) = w := by
  have hw := w.isLt
  apply BitVec.eq_of_toNat_eq
  simp only [wordI_toNat, opOf, rsOf, rtOf, imm16Of, BitVec.val_toFin, BitVec.extractLsb'_toNat, Nat.shiftRight_eq_div_pow]
  omega

/-- The word rebuilt from its fields, J format. -/
theorem wordJ_of_fields (w : Word) : wordJ (opOf w) (index26Of w) = w := by
  have hw := w.isLt
  apply BitVec.eq_of_toNat_eq
  simp only [wordJ_toNat, opOf, index26Of, BitVec.extractLsb'_toNat, Nat.shiftRight_eq_div_pow]
  omega

end Sys2Proof
end

