-- ==== Sys2Proof/Laws/Exec.lean ====
section
/-! SUPPORT. What each shape of an instruction's effect does, once: the lemmas the meanings' proofs cite instead of unfolding
the operations. -/

namespace Sys2Proof.Machine

/-- Writing one register and advancing. -/
theorem finish_spec (s : State) (r : Reg) (v : Word) : ∃ t, s.finish r v = .next t ∧ s.WritesReg t r v := by
  refine ⟨_, rfl, ⟨?_, ?_, ?_, ⟨?_, ?_⟩, ⟨?_, ?_⟩, ?_, ⟨?_, ?_, ?_, ?_, ?_⟩⟩⟩
  · simp [readReg_writeReg]
  · simp [State.AtNext, State.nextPc]
  · intro q hq
    have : q ≠ r := by simpa using hq
    simp [readReg_writeReg_other, this]
  all_goals simp

/-- Writing HI and LO and advancing. -/
theorem finishHiLo_spec (s : State) (h l : Word) : ∃ t, s.finishHiLo h l = .next t ∧ s.WritesHiLo t h l :=
  ⟨_, rfl, rfl, rfl, rfl, fun _ _ => rfl, ⟨fun _ => rfl, fun _ => rfl⟩, rfl, ⟨rfl, rfl, rfl, rfl, rfl⟩⟩

/-- Raising a fault. -/
theorem raise_spec (s : State) (r : Raised) : ∃ t, s.raise r = .next t ∧ s.Faulted t r.kind := ⟨_, rfl, rfl⟩

/-- A branch goes to its target or to the next index. -/
theorem branch_spec (s : State) (taken : Bool) (offset : Int) :
    ∃ t, s.branch taken offset = .next t ∧ s.JumpsTo t (if taken then s.branchTarget offset else trunc32 (u s.pc + 1)) := by
  cases taken
  · exact ⟨_, rfl, rfl, fun _ _ => rfl, ⟨rfl, rfl⟩, ⟨fun _ => rfl, fun _ => rfl⟩, rfl, ⟨rfl, rfl, rfl, rfl, rfl⟩⟩
  · exact ⟨_, rfl, rfl, fun _ _ => rfl, ⟨rfl, rfl⟩, ⟨fun _ => rfl, fun _ => rfl⟩, rfl, ⟨rfl, rfl, rfl, rfl, rfl⟩⟩

/-- A jump. -/
theorem setPc_spec (s : State) (target : Word) : s.JumpsTo (s.setPc target) target :=
  ⟨rfl, fun _ _ => rfl, ⟨rfl, rfl⟩, ⟨fun _ => rfl, fun _ => rfl⟩, rfl, ⟨rfl, rfl, rfl, rfl, rfl⟩⟩

/-- A jump that links. -/
theorem link_spec (s : State) (target : Word) : s.LinksTo ((s.writeReg 31 s.nextPc).setPc target) target := by
  refine ⟨?_, rfl, ?_, ⟨?_, ?_⟩, ⟨?_, ?_⟩, ?_, ⟨?_, ?_, ?_, ?_, ?_⟩⟩
  · rw [setPc_readReg, readReg_writeReg_same _ _ (by decide)]
    rfl
  · intro q hq
    have : q ≠ 31 := by simpa using hq
    simp [readReg_writeReg_other, this]
  all_goals simp

/-- The value a load reads. -/
def State.readValue (s : State) (ea : Word) (n : Size) : Nat :=
  joinBytes (inOrder s.cfg.endian (s.dataBytes (u ea) n.bytes))

/-- A load that passes the checks. -/
theorem load_ok (s : State) {n : Size} (extend : Nat → Word) (rt : Reg) {ea : Word} (h : checkAccess s.cfg ea n = none) :
    ∃ t, s.load n extend rt ea = .next t ∧ s.Loads t n ea rt (extend (s.readValue ea n)) := by
  unfold State.load
  rw [memRead_ok h]
  refine ⟨_, rfl, ⟨?_, ?_, ?_, ⟨?_, ?_⟩, ⟨?_, ?_⟩, ?_, ⟨?_, ?_, ?_, ?_, ?_⟩⟩⟩
  · simp [readReg_writeReg, State.readValue]
  · simp [State.AtNext, State.nextPc]
  · intro q hq
    have : q ≠ rt := by simpa using hq
    simp [readReg_writeReg_other, this]
  all_goals simp

/-- A load that raises a fault. -/
theorem load_fault (s : State) {n : Size} (extend : Nat → Word) (rt : Reg) {ea : Word} {r : Raised}
    (h : checkAccess s.cfg ea n = some r) : s.load n extend rt ea = .next (s.takeFault r) := by
  simp [State.load, memRead_error h, State.raise]

/-- A store that passes the checks, where the byte memories are in canonical form. -/
theorem store_ok {s : State} (hm : s.MemWf) {n : Size} (v : Word) {ea : Word} (h : checkAccess s.cfg ea n = none) :
    ∃ t, s.store n v ea = .next t ∧ s.Stores t n ea (inOrder s.cfg.endian (splitBytes v n.bytes)) := by
  unfold State.store
  rw [memWrite_ok v h]
  refine ⟨_, rfl, ⟨?_, ?_, ?_, ?_, ?_, ?_, ⟨?_, ?_⟩, ?_, ⟨?_, ?_, ?_, ?_, ?_⟩⟩⟩
  · intro k hk
    simpa using dataByte_setDataBytes hm (u ea) (inOrder s.cfg.endian (splitBytes v n.bytes)) (by simpa using hk)
  · intro a ha
    simpa using setDataBytes_read_other s (u ea) (inOrder s.cfg.endian (splitBytes v n.bytes)) (a' := a) (by simpa using ha)
  · intro a ha
    simpa using (setDataBytes_routed s (u ea) (inOrder s.cfg.endian (splitBytes v n.bytes)) a).1 ha
  · intro a ha
    simpa using (setDataBytes_routed s (u ea) (inOrder s.cfg.endian (splitBytes v n.bytes)) a).2 ha
  · simp [State.AtNext, State.nextPc]
  · intro q _
    simp
  all_goals simp

/-- A store that raises a fault. -/
theorem store_fault (s : State) {n : Size} (v : Word) {ea : Word} {r : Raised} (h : checkAccess s.cfg ea n = some r) :
    s.store n v ea = .next (s.takeFault r) := by
  simp [State.store, memWrite_error v h, State.raise]

/-- A division: a fault on divisor 0, else HI and LO. -/
theorem finishDivision_zero (s : State) (qr : Word × Word) : s.finishDivision 0 qr = .next (s.takeFault .divisionByZero) := rfl

theorem finishDivision_nonzero (s : State) {d : Word} (qr : Word × Word) (h : d ≠ 0) :
    s.finishDivision d qr = s.finishHiLo qr.2 qr.1 := by
  unfold State.finishDivision
  exact if_neg h

/-! ### Arithmetic as bit-vector operations -/

theorem sum32_eq (a b : Word) : sum32 a b = a + b := by
  apply BitVec.eq_of_toNat_eq
  simp only [sum32, trunc32, u, ← Int.natCast_add, BitVec.ofInt_natCast, BitVec.toNat_ofNat, BitVec.toNat_add]

theorem diff32_eq (a b : Word) : diff32 a b = a - b := by
  have ha := a.isLt
  have hb := b.isLt
  apply BitVec.eq_of_toNat_eq
  simp only [diff32, trunc32, u, BitVec.toNat_ofInt, BitVec.toNat_sub]
  omega

theorem shiftRightLogical_eq (a : Word) (k : Nat) : shiftRightLogical a k = a >>> k := by
  apply BitVec.eq_of_toNat_eq
  have : a.toNat / 2 ^ k < 2 ^ 32 := Nat.lt_of_le_of_lt (Nat.div_le_self _ _) a.isLt
  have e : ((u a : Int) / 2 ^ k) = ((a.toNat / 2 ^ k : Nat) : Int) := by simp [u]
  simp only [shiftRightLogical, trunc32, e, BitVec.ofInt_natCast, BitVec.toNat_ofNat, BitVec.toNat_ushiftRight,
    Nat.shiftRight_eq_div_pow, Nat.mod_eq_of_lt this]

theorem shiftLeft_eq (a : Word) (k : Nat) : shiftLeft a k = a <<< k := by
  apply BitVec.eq_of_toNat_eq
  have e : ((u a : Int) * 2 ^ k) = ((a.toNat * 2 ^ k : Nat) : Int) := by simp [u]
  simp only [shiftLeft, trunc32, e, BitVec.ofInt_natCast, BitVec.toNat_ofNat, BitVec.toNat_shiftLeft, Nat.shiftLeft_eq]

theorem shiftRightArith_eq (a : Word) (k : Nat) : shiftRightArith a k = a.sshiftRight k := by
  simp only [shiftRightArith, trunc32, sgn, BitVec.sshiftRight, Int.shiftRight_eq_div_pow]
  norm_cast

end Sys2Proof.Machine
end

