-- ==== Sys2Proof/Laws/PerInstr.lean ====
section
/-! SUPPORT. Facts about each instruction as syntax, one lemma per constructor: its word lies in its row of the opcode
table (R92). -/

namespace Sys2Proof

/-! ### A format's word under a row's mask -/

theorem and_ones6 (x : BitVec 6) : x &&& 0x3F#6 = x := BitVec.and_allOnes (x := x)

theorem funct_alone (f : BitVec 6) : f.setWidth 32 = 0#6 ++ 0#5 ++ 0#5 ++ 0#5 ++ 0#5 ++ f := by
  have := f.isLt
  apply BitVec.eq_of_toNat_eq
  simp only [append_toNat, BitVec.toNat_setWidth, BitVec.toNat_ofNat]
  omega

theorem opcode_alone (op : BitVec 6) : (op ++ 0#26 : Word) = op ++ 0#5 ++ 0#5 ++ 0#16 := by
  apply BitVec.eq_of_toNat_eq
  simp only [append_toNat, BitVec.toNat_ofNat]
  omega

theorem and_mask_register (rs rt rd : Reg) (f : BitVec 6) : wordR rs rt rd 0 f &&& 0xFC0007FF#32 = f.setWidth 32 := by
  have e : (0xFC0007FF#32 : Word) = 0x3F#6 ++ 0#5 ++ 0#5 ++ 0#5 ++ 0x1F#5 ++ 0x3F#6 := by decide
  rw [e, funct_alone, wordR, BitVec.and_append, BitVec.and_append, BitVec.and_append, BitVec.and_append, BitVec.and_append]
  simp [and_ones6]

theorem and_mask_sources (rs rt : Reg) (f : BitVec 6) : wordR rs rt 0 0 f &&& 0xFC00FFFF#32 = f.setWidth 32 := by
  have e : (0xFC00FFFF#32 : Word) = 0x3F#6 ++ 0#5 ++ 0#5 ++ 0x1F#5 ++ 0x1F#5 ++ 0x3F#6 := by decide
  rw [e, funct_alone, wordR, BitVec.and_append, BitVec.and_append, BitVec.and_append, BitVec.and_append, BitVec.and_append]
  simp [and_ones6, regBits]

theorem and_mask_dest (rd : Reg) (f : BitVec 6) : wordR 0 0 rd 0 f &&& 0xFFFF07FF#32 = f.setWidth 32 := by
  have e : (0xFFFF07FF#32 : Word) = 0x3F#6 ++ 0x1F#5 ++ 0x1F#5 ++ 0#5 ++ 0x1F#5 ++ 0x3F#6 := by decide
  rw [e, funct_alone, wordR, BitVec.and_append, BitVec.and_append, BitVec.and_append, BitVec.and_append, BitVec.and_append]
  simp [and_ones6, regBits]

theorem and_mask_shift (rt rd : Reg) (sh : BitVec 5) (f : BitVec 6) :
    wordR 0 rt rd sh f &&& 0xFFE0003F#32 = f.setWidth 32 := by
  have e : (0xFFE0003F#32 : Word) = 0x3F#6 ++ 0x1F#5 ++ 0#5 ++ 0#5 ++ 0#5 ++ 0x3F#6 := by decide
  rw [e, funct_alone, wordR, BitVec.and_append, BitVec.and_append, BitVec.and_append, BitVec.and_append, BitVec.and_append]
  simp [and_ones6, regBits]

theorem and_mask_jr (rs : Reg) (f : BitVec 6) : wordR rs 0 0 0 f &&& 0xFC1FFFFF#32 = f.setWidth 32 := by
  have e : (0xFC1FFFFF#32 : Word) = 0x3F#6 ++ 0#5 ++ 0x1F#5 ++ 0x1F#5 ++ 0x1F#5 ++ 0x3F#6 := by decide
  rw [e, funct_alone, wordR, BitVec.and_append, BitVec.and_append, BitVec.and_append, BitVec.and_append, BitVec.and_append]
  simp [and_ones6, regBits]

theorem and_mask_opcode (op : BitVec 6) (rs rt : Reg) (imm : BitVec 16) :
    wordI op rs rt imm &&& 0xFC000000#32 = op ++ 0#26 := by
  have e : (0xFC000000#32 : Word) = 0x3F#6 ++ 0#5 ++ 0#5 ++ 0#16 := by decide
  rw [e, opcode_alone, wordI, BitVec.and_append, BitVec.and_append, BitVec.and_append]
  simp [and_ones6]

theorem and_mask_lui (op : BitVec 6) (rt : Reg) (imm : BitVec 16) :
    wordI op 0 rt imm &&& 0xFFE00000#32 = op ++ 0#26 := by
  have e : (0xFFE00000#32 : Word) = 0x3F#6 ++ 0x1F#5 ++ 0#5 ++ 0#16 := by decide
  rw [e, opcode_alone, wordI, BitVec.and_append, BitVec.and_append, BitVec.and_append]
  simp [and_ones6, regBits]

theorem and_mask_jump (op : BitVec 6) (index : BitVec 26) : wordJ op index &&& 0xFC000000#32 = op ++ 0#26 := by
  have e : (0xFC000000#32 : Word) = 0x3F#6 ++ 0#26 := by decide
  rw [e, wordJ, BitVec.and_append]
  simp [and_ones6]

namespace Laws.EncodesInRow

/-- The word of the instruction matches a row of the opcode table that has its mnemonic. -/
def Statement (i : Instr) : Prop := ∃ r ∈ opcodeTable, r.mnemonic = i.mnemonic ∧ r.matches (encode i) = true

/-- A row of the table that the word matches under its mask. -/
theorem intro {i : Instr} (r : Row) (hr : r ∈ opcodeTable) (hm : r.mnemonic = i.mnemonic)
    (h : encode i &&& r.mask = r.pattern) : Statement i :=
  ⟨r, hr, hm, by simpa [Row.matches] using h⟩

theorem add (rd : Reg) (rs : Reg) (rt : Reg) : Statement (.add rd rs rt) :=
  intro ⟨"add", 0x00000020, 0xFC0007FF⟩ (by decide) rfl (and_mask_register _ _ _ _)

theorem addu (rd : Reg) (rs : Reg) (rt : Reg) : Statement (.addu rd rs rt) :=
  intro ⟨"addu", 0x00000021, 0xFC0007FF⟩ (by decide) rfl (and_mask_register _ _ _ _)

theorem sub (rd : Reg) (rs : Reg) (rt : Reg) : Statement (.sub rd rs rt) :=
  intro ⟨"sub", 0x00000022, 0xFC0007FF⟩ (by decide) rfl (and_mask_register _ _ _ _)

theorem subu (rd : Reg) (rs : Reg) (rt : Reg) : Statement (.subu rd rs rt) :=
  intro ⟨"subu", 0x00000023, 0xFC0007FF⟩ (by decide) rfl (and_mask_register _ _ _ _)

theorem addi (rt : Reg) (rs : Reg) (imm : Int) : Statement (.addi rt rs imm) :=
  intro ⟨"addi", 0x20000000, 0xFC000000⟩ (by decide) rfl (and_mask_opcode _ _ _ _)

theorem addiu (rt : Reg) (rs : Reg) (imm : Int) : Statement (.addiu rt rs imm) :=
  intro ⟨"addiu", 0x24000000, 0xFC000000⟩ (by decide) rfl (and_mask_opcode _ _ _ _)

theorem mult (rs : Reg) (rt : Reg) : Statement (.mult rs rt) :=
  intro ⟨"mult", 0x00000018, 0xFC00FFFF⟩ (by decide) rfl (and_mask_sources _ _ _)

theorem multu (rs : Reg) (rt : Reg) : Statement (.multu rs rt) :=
  intro ⟨"multu", 0x00000019, 0xFC00FFFF⟩ (by decide) rfl (and_mask_sources _ _ _)

theorem div (rs : Reg) (rt : Reg) : Statement (.div rs rt) :=
  intro ⟨"div", 0x0000001A, 0xFC00FFFF⟩ (by decide) rfl (and_mask_sources _ _ _)

theorem divu (rs : Reg) (rt : Reg) : Statement (.divu rs rt) :=
  intro ⟨"divu", 0x0000001B, 0xFC00FFFF⟩ (by decide) rfl (and_mask_sources _ _ _)

theorem mfhi (rd : Reg) : Statement (.mfhi rd) :=
  intro ⟨"mfhi", 0x00000010, 0xFFFF07FF⟩ (by decide) rfl (and_mask_dest _ _)

theorem mflo (rd : Reg) : Statement (.mflo rd) :=
  intro ⟨"mflo", 0x00000012, 0xFFFF07FF⟩ (by decide) rfl (and_mask_dest _ _)

theorem and (rd : Reg) (rs : Reg) (rt : Reg) : Statement (.and rd rs rt) :=
  intro ⟨"and", 0x00000024, 0xFC0007FF⟩ (by decide) rfl (and_mask_register _ _ _ _)

theorem or (rd : Reg) (rs : Reg) (rt : Reg) : Statement (.or rd rs rt) :=
  intro ⟨"or", 0x00000025, 0xFC0007FF⟩ (by decide) rfl (and_mask_register _ _ _ _)

theorem xor (rd : Reg) (rs : Reg) (rt : Reg) : Statement (.xor rd rs rt) :=
  intro ⟨"xor", 0x00000026, 0xFC0007FF⟩ (by decide) rfl (and_mask_register _ _ _ _)

theorem nor (rd : Reg) (rs : Reg) (rt : Reg) : Statement (.nor rd rs rt) :=
  intro ⟨"nor", 0x00000027, 0xFC0007FF⟩ (by decide) rfl (and_mask_register _ _ _ _)

theorem andi (rt : Reg) (rs : Reg) (imm : Nat) : Statement (.andi rt rs imm) :=
  intro ⟨"andi", 0x30000000, 0xFC000000⟩ (by decide) rfl (and_mask_opcode _ _ _ _)

theorem ori (rt : Reg) (rs : Reg) (imm : Nat) : Statement (.ori rt rs imm) :=
  intro ⟨"ori", 0x34000000, 0xFC000000⟩ (by decide) rfl (and_mask_opcode _ _ _ _)

theorem xori (rt : Reg) (rs : Reg) (imm : Nat) : Statement (.xori rt rs imm) :=
  intro ⟨"xori", 0x38000000, 0xFC000000⟩ (by decide) rfl (and_mask_opcode _ _ _ _)

theorem sll (rd : Reg) (rt : Reg) (shamt : Nat) : Statement (.sll rd rt shamt) :=
  intro ⟨"sll", 0x00000000, 0xFFE0003F⟩ (by decide) rfl (and_mask_shift _ _ _ _)

theorem srl (rd : Reg) (rt : Reg) (shamt : Nat) : Statement (.srl rd rt shamt) :=
  intro ⟨"srl", 0x00000002, 0xFFE0003F⟩ (by decide) rfl (and_mask_shift _ _ _ _)

theorem sra (rd : Reg) (rt : Reg) (shamt : Nat) : Statement (.sra rd rt shamt) :=
  intro ⟨"sra", 0x00000003, 0xFFE0003F⟩ (by decide) rfl (and_mask_shift _ _ _ _)

theorem slt (rd : Reg) (rs : Reg) (rt : Reg) : Statement (.slt rd rs rt) :=
  intro ⟨"slt", 0x0000002A, 0xFC0007FF⟩ (by decide) rfl (and_mask_register _ _ _ _)

theorem sltu (rd : Reg) (rs : Reg) (rt : Reg) : Statement (.sltu rd rs rt) :=
  intro ⟨"sltu", 0x0000002B, 0xFC0007FF⟩ (by decide) rfl (and_mask_register _ _ _ _)

theorem slti (rt : Reg) (rs : Reg) (imm : Int) : Statement (.slti rt rs imm) :=
  intro ⟨"slti", 0x28000000, 0xFC000000⟩ (by decide) rfl (and_mask_opcode _ _ _ _)

theorem sltiu (rt : Reg) (rs : Reg) (imm : Int) : Statement (.sltiu rt rs imm) :=
  intro ⟨"sltiu", 0x2C000000, 0xFC000000⟩ (by decide) rfl (and_mask_opcode _ _ _ _)

theorem lw (rt : Reg) (offset : Int) (rs : Reg) : Statement (.lw rt offset rs) :=
  intro ⟨"lw", 0x8C000000, 0xFC000000⟩ (by decide) rfl (and_mask_opcode _ _ _ _)

theorem sw (rt : Reg) (offset : Int) (rs : Reg) : Statement (.sw rt offset rs) :=
  intro ⟨"sw", 0xAC000000, 0xFC000000⟩ (by decide) rfl (and_mask_opcode _ _ _ _)

theorem lb (rt : Reg) (offset : Int) (rs : Reg) : Statement (.lb rt offset rs) :=
  intro ⟨"lb", 0x80000000, 0xFC000000⟩ (by decide) rfl (and_mask_opcode _ _ _ _)

theorem sb (rt : Reg) (offset : Int) (rs : Reg) : Statement (.sb rt offset rs) :=
  intro ⟨"sb", 0xA0000000, 0xFC000000⟩ (by decide) rfl (and_mask_opcode _ _ _ _)

theorem lh (rt : Reg) (offset : Int) (rs : Reg) : Statement (.lh rt offset rs) :=
  intro ⟨"lh", 0x84000000, 0xFC000000⟩ (by decide) rfl (and_mask_opcode _ _ _ _)

theorem sh (rt : Reg) (offset : Int) (rs : Reg) : Statement (.sh rt offset rs) :=
  intro ⟨"sh", 0xA4000000, 0xFC000000⟩ (by decide) rfl (and_mask_opcode _ _ _ _)

theorem lui (rt : Reg) (imm : Nat) : Statement (.lui rt imm) :=
  intro ⟨"lui", 0x3C000000, 0xFFE00000⟩ (by decide) rfl (and_mask_lui _ _ _)

theorem beq (rs : Reg) (rt : Reg) (offset : Int) : Statement (.beq rs rt offset) :=
  intro ⟨"beq", 0x10000000, 0xFC000000⟩ (by decide) rfl (and_mask_opcode _ _ _ _)

theorem bne (rs : Reg) (rt : Reg) (offset : Int) : Statement (.bne rs rt offset) :=
  intro ⟨"bne", 0x14000000, 0xFC000000⟩ (by decide) rfl (and_mask_opcode _ _ _ _)

theorem j (index : Nat) : Statement (.j index) :=
  intro ⟨"j", 0x08000000, 0xFC000000⟩ (by decide) rfl (and_mask_jump _ _)

theorem jal (index : Nat) : Statement (.jal index) :=
  intro ⟨"jal", 0x0C000000, 0xFC000000⟩ (by decide) rfl (and_mask_jump _ _)

theorem jr (rs : Reg) : Statement (.jr rs) :=
  intro ⟨"jr", 0x00000008, 0xFC1FFFFF⟩ (by decide) rfl (and_mask_jr _ _)

end Laws.EncodesInRow

end Sys2Proof
end

