-- ==== Sys2Proof/Tests/Slice0.lean ====
section
/-! SUPPORT. Tests: ill-formed terms refused, a word of every instruction decoded, single steps of `95_test_vectors.md`, and a
witness for the hypotheses of every statement that has some. Expected results are the spec's. -/

namespace Sys2Proof.Tests

open Sys2Proof.Machine

/-! ### Helpers -/

/-- A machine about to run the word `w` at index `pc`, with `$t0`, `$t1`, `$t2` set; all else as after reset. -/
def startAt (pc : Word) (w : Nat) (t0 t1 t2 : Word) : State :=
  (((({ State.reset with pc := pc }).withFetchWord 32 w).writeReg 8 t0).writeReg 9 t1).writeReg 10 t2

/-- The same at index 0. -/
def start (w : Nat) (t0 t1 t2 : Word) : State := startAt 0 w t0 t1 t2

/-- What a view of the state shows after one step. -/
def after {α : Type} (s : State) (view : State → α) : Option α :=
  match step s with
  | .next t => some (view t)
  | .fault _ => none
  | .refused _ => none

/-- `$t0` and `pc`. -/
def t0Pc (t : State) : Word × Word := (t.readReg 8, t.pc)

/-- `HI`, `LO` and `pc`. -/
def hiLoPc (t : State) : Word × Word × Word := (t.hi, t.lo, t.pc)

/-- `DMEM`, `LMA` and `pc`. -/
def memPc (t : State) : Memory × Option (Word × Size) × Word := (t.dmem, t.lma, t.pc)

/-- The status, `$t0`, `LMA` and `pc`. -/
def stopView (t : State) : Status × Word × Option (Word × Size) × Word := (t.status, t.readReg 8, t.lma, t.pc)

/-- The word `0x11223344` at `0x1000`, little-endian (V111). -/
def word1000 : Memory := [(0x1000, 0x44), (0x1001, 0x33), (0x1002, 0x22), (0x1003, 0x11)]

/-! ### Well-formedness (R78) -/

theorem test_wf_signed16 : (Instr.addi 8 9 32767).wf = true ∧ (Instr.addi 8 9 32768).wf = false ∧
    (Instr.lw 8 (-32768) 9).wf = true ∧ (Instr.lw 8 (-32769) 9).wf = false ∧ (Instr.beq 8 9 32768).wf = false := by decide

theorem test_wf_unsigned16 : (Instr.ori 8 9 65535).wf = true ∧ (Instr.ori 8 9 65536).wf = false ∧
    (Instr.lui 8 65536).wf = false := by decide

theorem test_wf_shamt : (Instr.sll 8 9 31).wf = true ∧ (Instr.sll 8 9 32).wf = false := by decide

theorem test_wf_index26 : (Instr.j 67108863).wf = true ∧ (Instr.j 67108864).wf = false := by decide

/-! ### Decoding: a word of every instruction, field by field (R80 to R82, R90, R91) -/

theorem test_decode_arithmetic :
    decode (0#6 ++ 9#5 ++ 10#5 ++ 8#5 ++ 0#5 ++ 0x20#6) = .ok (.add 8 9 10) ∧
    decode (0#6 ++ 9#5 ++ 10#5 ++ 8#5 ++ 0#5 ++ 0x21#6) = .ok (.addu 8 9 10) ∧
    decode (0#6 ++ 9#5 ++ 10#5 ++ 8#5 ++ 0#5 ++ 0x22#6) = .ok (.sub 8 9 10) ∧
    decode (0#6 ++ 9#5 ++ 10#5 ++ 8#5 ++ 0#5 ++ 0x23#6) = .ok (.subu 8 9 10) ∧
    decode (0x08#6 ++ 9#5 ++ 8#5 ++ 0xFFFF#16) = .ok (.addi 8 9 (-1)) ∧
    decode (0x09#6 ++ 0#5 ++ 8#5 ++ 0xFFFB#16) = .ok (.addiu 8 0 (-5)) := by decide

theorem test_decode_muldiv :
    decode (0#6 ++ 9#5 ++ 10#5 ++ 0#5 ++ 0#5 ++ 0x18#6) = .ok (.mult 9 10) ∧
    decode (0#6 ++ 9#5 ++ 10#5 ++ 0#5 ++ 0#5 ++ 0x19#6) = .ok (.multu 9 10) ∧
    decode (0#6 ++ 9#5 ++ 10#5 ++ 0#5 ++ 0#5 ++ 0x1A#6) = .ok (.div 9 10) ∧
    decode (0#6 ++ 9#5 ++ 10#5 ++ 0#5 ++ 0#5 ++ 0x1B#6) = .ok (.divu 9 10) ∧
    decode (0#6 ++ 0#5 ++ 0#5 ++ 8#5 ++ 0#5 ++ 0x10#6) = .ok (.mfhi 8) ∧
    decode (0#6 ++ 0#5 ++ 0#5 ++ 8#5 ++ 0#5 ++ 0x12#6) = .ok (.mflo 8) := by decide

theorem test_decode_logic :
    decode (0#6 ++ 9#5 ++ 10#5 ++ 8#5 ++ 0#5 ++ 0x24#6) = .ok (.and 8 9 10) ∧
    decode (0#6 ++ 9#5 ++ 10#5 ++ 8#5 ++ 0#5 ++ 0x25#6) = .ok (.or 8 9 10) ∧
    decode (0#6 ++ 9#5 ++ 10#5 ++ 8#5 ++ 0#5 ++ 0x26#6) = .ok (.xor 8 9 10) ∧
    decode (0#6 ++ 9#5 ++ 10#5 ++ 8#5 ++ 0#5 ++ 0x27#6) = .ok (.nor 8 9 10) ∧
    decode (0x0C#6 ++ 9#5 ++ 8#5 ++ 0xFF00#16) = .ok (.andi 8 9 65280) ∧
    decode (0x0D#6 ++ 9#5 ++ 8#5 ++ 0xFF00#16) = .ok (.ori 8 9 65280) ∧
    decode (0x0E#6 ++ 9#5 ++ 8#5 ++ 0xFF00#16) = .ok (.xori 8 9 65280) := by decide

theorem test_decode_shift :
    decode (0#6 ++ 0#5 ++ 9#5 ++ 8#5 ++ 4#5 ++ 0x00#6) = .ok (.sll 8 9 4) ∧
    decode (0#6 ++ 0#5 ++ 9#5 ++ 8#5 ++ 4#5 ++ 0x02#6) = .ok (.srl 8 9 4) ∧
    decode (0#6 ++ 0#5 ++ 9#5 ++ 8#5 ++ 4#5 ++ 0x03#6) = .ok (.sra 8 9 4) := by decide

theorem test_decode_compare :
    decode (0#6 ++ 9#5 ++ 10#5 ++ 8#5 ++ 0#5 ++ 0x2A#6) = .ok (.slt 8 9 10) ∧
    decode (0#6 ++ 9#5 ++ 10#5 ++ 8#5 ++ 0#5 ++ 0x2B#6) = .ok (.sltu 8 9 10) ∧
    decode (0x0A#6 ++ 9#5 ++ 8#5 ++ 0x8000#16) = .ok (.slti 8 9 (-32768)) ∧
    decode (0x0B#6 ++ 9#5 ++ 8#5 ++ 0x8000#16) = .ok (.sltiu 8 9 (-32768)) := by decide

theorem test_decode_memory :
    decode (0x20#6 ++ 29#5 ++ 8#5 ++ 0xFFFC#16) = .ok (.lb 8 (-4) 29) ∧
    decode (0x21#6 ++ 29#5 ++ 8#5 ++ 0xFFFC#16) = .ok (.lh 8 (-4) 29) ∧
    decode (0x23#6 ++ 29#5 ++ 8#5 ++ 0xFFFC#16) = .ok (.lw 8 (-4) 29) ∧
    decode (0x28#6 ++ 29#5 ++ 8#5 ++ 0xFFFC#16) = .ok (.sb 8 (-4) 29) ∧
    decode (0x29#6 ++ 29#5 ++ 8#5 ++ 0xFFFC#16) = .ok (.sh 8 (-4) 29) ∧
    decode (0x2B#6 ++ 29#5 ++ 8#5 ++ 0xFFFC#16) = .ok (.sw 8 (-4) 29) ∧
    decode (0x0F#6 ++ 0#5 ++ 8#5 ++ 0x1234#16) = .ok (.lui 8 0x1234) := by decide

theorem test_decode_control :
    decode (0x04#6 ++ 8#5 ++ 9#5 ++ 0xFFFD#16) = .ok (.beq 8 9 (-3)) ∧
    decode (0x05#6 ++ 8#5 ++ 9#5 ++ 0xFFFD#16) = .ok (.bne 8 9 (-3)) ∧
    decode (0x02#6 ++ 100#26) = .ok (.j 100) ∧
    decode (0x03#6 ++ 100#26) = .ok (.jal 100) ∧
    decode (0#6 ++ 31#5 ++ 0#5 ++ 0#5 ++ 0#5 ++ 0x08#6) = .ok (.jr 31) := by decide

/-- Section 3.8 of `95_test_vectors.md`: each of these is `invalid`. -/
theorem test_decode_invalid : [0x012A4060, 0x00294100, 0x3C281234, 0x01204010, 0x012A4018, 0x03E00808, 0xFFFFFFFF, 0x0000000C,
    0x0000000D, 0x012A4004, 0x0120F809, 0x01200011, 0x90000000, 0x71285002, 0x04110000, 0x42000018].all
      (fun w => (decodeTableWord 32 w).isNone) = true := by decide

/-! ### Single steps (`95_test_vectors.md` section 3; the vector is named) -/

/-- V1. -/
theorem test_add_wraps : after (start 0x012A4020 0 0x7FFFFFFF 1) t0Pc = some (0x80000000, 1) := by decide

/-- V4. -/
theorem test_add_destination_is_source :
    after (start 0x01084020 0x40000000 0 0) t0Pc =
      some (0x80000000, 1) := by decide

/-- V3. -/
theorem test_addu_wraps : after (start 0x012A4021 0 0x7FFFFFFF 1) t0Pc = some (0x80000000, 1) := by decide

/-- V6. -/
theorem test_sub_order : after (start 0x012A4022 0 0 1) t0Pc = some (0xFFFFFFFF, 1) := by decide

/-- V8. -/
theorem test_subu_order : after (start 0x012A4023 0 5 7) t0Pc = some (0xFFFFFFFE, 1) := by decide

/-- V11. -/
theorem test_addi_sign_extends : after (start 0x21287FFF 0 0x7FFFFFFF 0) t0Pc = some (0x80007FFE, 1) := by decide

/-- V12. -/
theorem test_addiu_sign_extends : after (start 0x25288000 0 0 0) t0Pc = some (0xFFFF8000, 1) := by decide

/-- V24. -/
theorem test_mult_signed :
    after (start 0x012A0018 0 0xFFFFFFFE 3) hiLoPc =
      some (0xFFFFFFFF, 0xFFFFFFFA, 1) := by decide

/-- V25. -/
theorem test_multu_unsigned : after (start 0x012A0019 0 0xFFFFFFFE 3) hiLoPc = some (2, 0xFFFFFFFA, 1) := by decide

/-- V29. -/
theorem test_div_truncates :
    after (start 0x012A001A 0 0xFFFFFFF9 2) hiLoPc =
      some (0xFFFFFFFF, 0xFFFFFFFD, 1) := by decide

/-- V32. -/
theorem test_div_overflow :
    after (start 0x012A001A 0 0x80000000 0xFFFFFFFF) hiLoPc =
      some (0, 0x80000000, 1) := by decide

/-- V33. -/
theorem test_divu_unsigned : after (start 0x012A001B 0 0xFFFFFFF9 2) hiLoPc = some (1, 0x7FFFFFFC, 1) := by decide

/-- V36, with HI and LO kept. -/
theorem test_divu_zero_faults :
    after { start 0x012A001B 0 0 0 with hi := 0x11, lo := 0x22 } (fun t => (t.status, hiLoPc t)) =
      some (.fault .divisionByZero, 0x11, 0x22, 0) := by decide

/-- V38. -/
theorem test_mfhi :
    after { start 0x00004010 0 0 0 with hi := 0xCAFEBABE, lo := 1 } t0Pc =
      some (0xCAFEBABE, 1) := by decide

/-- V39. -/
theorem test_mflo :
    after { start 0x00004012 0 0 0 with hi := 1, lo := 0x8BADF00D } t0Pc =
      some (0x8BADF00D, 1) := by decide

/-- V50. -/
theorem test_and : after (start 0x012A4024 0 0xF0F0F0F0 0xFF00FF00) t0Pc = some (0xF000F000, 1) := by decide

/-- V51. -/
theorem test_or : after (start 0x012A4025 0 0xF0F0F0F0 0xFF00FF00) t0Pc = some (0xFFF0FFF0, 1) := by decide

/-- V52. -/
theorem test_xor : after (start 0x012A4026 0 0xF0F0F0F0 0xFF00FF00) t0Pc = some (0x0FF00FF0, 1) := by decide

/-- V53. -/
theorem test_nor : after (start 0x012A4027 0 0xF0F0F0F0 0xFF00FF00) t0Pc = some (0x000F000F, 1) := by decide

/-- V57. -/
theorem test_andi_zero_extends : after (start 0x31288000 0 0xFFFF8000 0) t0Pc = some (0x00008000, 1) := by decide

/-- V59. -/
theorem test_ori_zero_extends : after (start 0x3408FFFF 0 0 0) t0Pc = some (0x0000FFFF, 1) := by decide

/-- V60. -/
theorem test_xori_low_half : after (start 0x3928FFFF 0 0xFFFF00FF 0) t0Pc = some (0xFFFFFF00, 1) := by decide

/-- V71. -/
theorem test_sll_loses_high_bits : after (start 0x00094040 0 0x80000001 0) t0Pc = some (0x00000002, 1) := by decide

/-- V74. -/
theorem test_srl_zero_fill : after (start 0x00094102 0 0x87654321 0) t0Pc = some (0x08765432, 1) := by decide

/-- V76. -/
theorem test_sra_sign_fill : after (start 0x00094103 0 0x87654321 0) t0Pc = some (0xF8765432, 1) := by decide

/-- V92. -/
theorem test_slt_signed : after (start 0x012A402A 0 0x80000000 0x7FFFFFFF) t0Pc = some (1, 1) := by decide

/-- V91. -/
theorem test_sltu_unsigned : after (start 0x012A402B 9 0xFFFFFFFF 1) t0Pc = some (0, 1) := by decide

/-- V95. -/
theorem test_slti_signed : after (start 0x2928FFFF 0 0xFFFFFFFE 0) t0Pc = some (1, 1) := by decide

/-- V99. -/
theorem test_sltiu_sign_extends : after (start 0x2D28FFFF 0 0x0000FFFF 0) t0Pc = some (1, 1) := by decide

/-- V110. -/
theorem test_sw_little_endian :
    after (start 0xAD280000 0x11223344 0x1000 0) memPc =
      some (word1000, some (0x1000, .word), 1) := by decide

/-- V125. -/
theorem test_sw_misaligned :
    after (start 0xAD280001 0xAAAAAAAA 0x1000 0) (fun t => (t.status, t.dmem.length, t.pc)) =
      some (.fault .misalignedAccess, 0, 0) := by decide

/-- V111. -/
theorem test_lw :
    after { start 0x8D280000 0 0x1000 0 with dmem := word1000 } stopView =
      some (.ready, 0x11223344, some (0x1000, .word), 1) := by decide

/-- V128. -/
theorem test_lw_out_of_range :
    after (start 0x8D280000 0xAAAAAAAA 0x80000000 0) stopView =
      some (.fault .memoryOutOfRange, 0xAAAAAAAA, none, 0) := by decide

/-- V117. -/
theorem test_lb_sign_extends :
    after { start 0x81280000 0 0x2001 0 with dmem := [(0x2001, 0xFF)] } stopView =
      some (.ready, 0xFFFFFFFF, some (0x2001, .byte), 1) := by decide

/-- V134. -/
theorem test_lb_last_byte :
    after (start 0x81280000 7 0x7FFFFFFF 0) stopView =
      some (.ready, 0, some (0x7FFFFFFF, .byte), 1) := by decide

/-- V116. -/
theorem test_sb_low_byte :
    after (start 0xA1280000 0x123456FF 0x2001 0) memPc =
      some ([(0x2001, 0xFF)], some (0x2001, .byte), 1) := by decide

/-- V120. -/
theorem test_lh_sign_extends :
    after { start 0x85280000 0 0x3000 0 with dmem := [(0x3001, 0x80)] } stopView =
      some (.ready, 0xFFFF8000, some (0x3000, .half), 1) := by decide

/-- V124. -/
theorem test_lh_misaligned :
    after (start 0x85280001 0xAAAAAAAA 0x1000 0) stopView =
      some (.fault .misalignedAccess, 0xAAAAAAAA, none, 0) := by decide

/-- V119. -/
theorem test_sh_low_half :
    after (start 0xA5280002 0x1234ABCD 0x1000 0) memPc =
      some ([(0x1002, 0xCD), (0x1003, 0xAB)], some (0x1002, .half), 1) := by decide

/-- V137. -/
theorem test_lui : after (start 0x3C081234 0xFFFFFFFF 0 0) t0Pc = some (0x12340000, 1) := by decide

/-- V150. -/
theorem test_beq_taken : after (startAt 10 0x11090005 7 7 0) (fun t => t.pc) = some 16 := by decide

/-- V151. -/
theorem test_beq_not_taken : after (startAt 10 0x11090005 7 8 0) (fun t => t.pc) = some 11 := by decide

/-- V154. -/
theorem test_bne_backward : after (startAt 10 0x1500FFF8 1 0 0) (fun t => t.pc) = some 3 := by decide

/-- V158. -/
theorem test_j_absolute : after (startAt 10 0x08000028 0 0 0) (fun t => t.pc) = some 40 := by decide

/-- V159. -/
theorem test_jal_links :
    after (startAt 7 0x0C000028 0 0 0) (fun t => (t.readReg 31, t.pc)) =
      some (8, 40) := by decide

/-- V162. -/
theorem test_jr_outside :
    after (startAt 5 0x01000008 0x1000 0 0) (fun t => (t.status, t.pc)) =
      some (.ready, 0x1000) := by decide

/-- the word `0x012A4060` of section 3.8. -/
theorem test_invalid_word_faults :
    after (start 0x012A4060 5 0 0) stopView =
      some (.fault .invalidInstruction, 5, none, 0) := by decide

/-- V164, for a program of two words. -/
theorem test_pc_outside_faults :
    after ((start 0 0 0 0).setPc 0x1000) (fun t => (t.status, t.pc)) =
      some (.fault .invalidInstruction, 0x1000) := by decide

/-- V165, for a program of two words. -/
theorem test_last_instruction_terminates :
    after ((start 0 0 0 0).setPc 1) (fun t => (t.status, t.controller, t.pc)) =
      some (.terminated, .halted, 2) := by decide

/-- R51's example in the other byte order: the bytes turn round (section 3.6 of `95_test_vectors.md`). -/
theorem test_sw_big_endian :
    after { start 0xAD280000 0x11223344 0x1000 0 with cfg := { Config.default with endian := .big } } (fun t => t.dmem) =
      some [(0x1000, 0x11), (0x1001, 0x22), (0x1002, 0x33), (0x1003, 0x44)] := by decide

/-- R66, R67: a store into the window reaches `PERIPH` and not `DMEM`. -/
theorem test_sw_into_window :
    after { start 0xAD280000 0x11223344 0x1000 0 with cfg := { Config.default with mmioWindow := [⟨0x1000, 1⟩] } }
      (fun t => (t.dmem, t.periph)) = some ([], word1000) := by decide

/-- Section 3.9 of `95_test_vectors.md`, lowered at index 30 with `L` at 29. -/
theorem test_lowering :
    (Pseudo.lower 30 (.move 8 9)).map (fun l => l.map encode) = some [0x01204020] ∧
    (Pseudo.lower 30 (.li 8 (-32768))).map (fun l => l.map encode) = some [0x24088000] ∧
    (Pseudo.lower 30 (.li 8 32768)).map (fun l => l.map encode) = some [0x3C080000, 0x35088000] ∧
    (Pseudo.lower 30 (.li 10 (-40000))).map (fun l => l.map encode) = some [0x3C0AFFFF, 0x354A63C0] ∧
    (Pseudo.lower 30 (.la 16 4000)).map (fun l => l.map encode) = some [0x24100FA0] ∧
    (Pseudo.lower 30 (.blt 9 10 29)).map (fun l => l.map encode) = some [0x012A082A, 0x1420FFFD] ∧
    (Pseudo.lower 30 (.bgt 9 10 29)).map (fun l => l.map encode) = some [0x0149082A, 0x1420FFFD] ∧
    (Pseudo.lower 30 (.ble 9 10 29)).map (fun l => l.map encode) = some [0x0149082A, 0x1020FFFD] ∧
    (Pseudo.lower 30 (.bge 9 10 29)).map (fun l => l.map encode) = some [0x012A082A, 0x1020FFFD] := by decide

/-- R22: names and numbers; `pc` is no settable register (R230). -/
theorem test_register_names : HostReg.ofName "$t9" = some (.gpr 25) ∧ HostReg.ofName "$ra" = some (.gpr 31) ∧
    HostReg.ofName "$8" = some (.gpr 8) ∧ HostReg.ofName "$hi" = some .hi ∧ HostReg.ofName "pc" = none := by decide

/-! ### Witnesses: a concrete input for the hypotheses of each statement -/

/-- `div $t1, $t2` and `add $t0, $t1, $t2`, with three initial bytes, one of them the last of memory. -/
def prog : Program := ⟨[0x012A001A, 0x012A4020], [(0x1000, 0x44), (0x1001, 0x33), (0x7FFFFFFF, 1)]⟩

/-- The machine after the load of `prog`. -/
def loaded : State := State.reset.loaded prog

/-- The same with the word `0x80000001` in `$t0`, `0x1000` in `$t1`, `0x1002` in `$t2`. -/
def work : State := ((loaded.writeReg 8 0x80000001).writeReg 9 0x1000).writeReg 10 0x1002


/-- The machine after the load of an empty program. -/
def empty : State := State.reset.loaded ⟨[], []⟩

/-- About to divide -2^31 by -1. -/
def minByMinusOne : State := start 0x012A001A 0 0x80000000 0xFFFFFFFF

theorem loaded_inv : loaded.Inv := by
  constructor
  case lma => intro ea n h; exact absurd h (by simp [loaded, State.loaded, State.cleared])
  case faulted => intro k h; exact absurd h (by simp [loaded, State.loaded, State.cleared])
  all_goals decide

theorem work_memWf : work.MemWf := ⟨by decide, by decide⟩

theorem test_witness_LoadInstallsProgram : prog.ok State.reset.cfg = true ∧
    prog.dmemInit.Pairwise (fun c d => c.1 ≠ d.1) ∧ ((0x7FFFFFFF, 1) : Host.Cell) ∈ prog.dmemInit ∧
    (∀ c ∈ prog.dmemInit, c.1 ≠ 0) ∧ prog.ok { Config.default with dmemSize := 4 } = false := by decide

theorem test_witness_EveryStepKeepsTheInvariant : loaded.Inv ∧ ∃ t, step loaded = .next t := ⟨loaded_inv, _, rfl⟩

theorem test_witness_HostOperationsKeepTheInvariant : loaded.Inv ∧ ∃ r, loaded.runCall 3 = some r := ⟨loaded_inv, _, rfl⟩

theorem test_witness_DecodeOfEncode : (Instr.sw 31 (-32768) 31).wf = true ∧ (Instr.xori 0 31 65535).wf = true ∧
    (Instr.sra 31 0 31).wf = true ∧ (Instr.jal 67108863).wf = true := by decide

theorem test_witness_EncodeOfDecode : decode 0xAFFF8000 = .ok (.sw 31 (-32768) 31) ∧
    decode 0xAFFF7FFF = .ok (.sw 31 32767 31) := by decide

theorem test_witness_DecodeFollowsTheOpcodeTable : (⟨"lui", 0x3C000000, 0xFFE00000⟩ : Row) ∈ opcodeTable ∧
    (⟨"lui", 0x3C000000, 0xFFE00000⟩ : Row).matches 0x3C1FFFFF = true ∧
    (⟨"lui", 0x3C000000, 0xFFE00000⟩ : Row).matches 0x3C200000 = false := by decide

theorem test_witness_OpcodeTableRowsAreDisjoint : (⟨"sll", 0x00000000, 0xFFE0003F⟩ : Row) ∈ opcodeTable ∧
    (⟨"sll", 0x00000000, 0xFFE0003F⟩ : Row).matches 0 = true := by decide

theorem test_witness_UnlistedCodesAreReserved : (opOf 0xFFFFFFFF).toNat = 0x3F ∧ (opOf 0x04000000).toNat = 0x01 ∧
    opOf 0x00000001 = 0 ∧ (functOf 0x00000001).toNat = 0x01 ∧ (functOf 0x0000003F).toNat = 0x3F := by decide

/-- The four cases of a step: in the program, at its end, one past that, and at a word that decodes to nothing. -/
theorem test_witness_StepRunsTheDecodedInstruction :
    (work.status = .ready ∧ work.controller ≠ .unloaded ∧ work.imem[u (work.setPc 1).pc]? = some 0x012A4020 ∧
      decode 0x012A4020 = .ok (.add 8 9 10)) ∧
    (empty.status = .ready ∧ empty.controller ≠ .unloaded ∧ u empty.pc = empty.imem.length) ∧
    u (work.setPc 3).pc > work.imem.length ∧
    (start 0xFFFFFFFF 0 0 0).imem[0]? = some 0xFFFFFFFF ∧ decode 0xFFFFFFFF = .error (.reservedOpcode 0x3F) := by decide

theorem test_witness_NoStepUnloadedOrHalted : State.reset.controller = .unloaded ∧
    (loaded.terminate.controller ≠ .unloaded ∧ loaded.terminate.status ≠ .ready) ∧
    (loaded.controller ≠ .unloaded ∧ loaded.status = .ready) := by decide

/-- `prog` divides by zero as loaded: the step and the `run` fault. -/
theorem test_witness_FaultsArePrecise : loaded.status = .ready ∧ loaded.controller.accepts = true ∧
    (∃ t, step loaded = .next t ∧ t.status = .fault .divisionByZero) ∧
    ∃ r, loaded.runCall 1 = some r ∧ r.1.status = .fault .divisionByZero :=
  ⟨rfl, rfl, ⟨_, rfl, rfl⟩, ⟨_, rfl, rfl⟩⟩

theorem test_witness_PlacedWordRunsNext : decodeTableWord 32 0xFFFFFFFF = none ∧
    decodeTableWord 32 0x012A4020 = some (.add 8 9 10) ∧
    after (State.reset.withFetchWord 32 0x012A4020) (fun t => decide (u t.pc ≠ t.imem.length)) = some true := by decide

theorem test_witness_AddImmediateSignExtends : fitsSigned16 (-32768) = true ∧ fitsSigned16 32767 = true := by decide

theorem test_witness_ProductsAreExact : (∃ t, exec (.mult 8 9) work = .next t) ∧ ∃ t, exec (.multu 8 9) work = .next t :=
  ⟨⟨_, rfl⟩, _, rfl⟩

theorem test_witness_SignedDivision : loaded.readReg 10 = 0 ∧ work.readReg 10 ≠ 0 ∧
    work.cfg.divOvf = (0x80000000, 0x00000000) := by decide

/-- The overflow pair, and a pair that is not it. -/
theorem test_witness_DivisionOverflowUsesItsParameter :
    (minByMinusOne.readReg 10 ≠ 0 ∧ sgn (minByMinusOne.readReg 9) = -2 ^ 31 ∧ sgn (minByMinusOne.readReg 10) = -1) ∧
    work.readReg 10 ≠ 0 ∧ sgn (work.readReg 10) ≠ -1 := by decide

theorem test_witness_UnsignedDivision : loaded.readReg 10 = 0 ∧ work.readReg 10 ≠ 0 := by decide

theorem test_witness_SignedDivisionIdentity : sgn (work.readReg 9) ≠ 0 ∧
    ¬ (sgn (work.readReg 8) = -2 ^ 31 ∧ sgn (work.readReg 9) = -1) ∧ ∃ t, exec (.div 8 9) work = .next t :=
  ⟨by decide, by decide, _, rfl⟩

theorem test_witness_LogicalImmediateForms : fitsUnsigned16 0 = true ∧ fitsUnsigned16 65535 = true := by decide

theorem test_witness_LogicWorksBitByBit : (8 : Reg) ≠ 0 ∧ 31 < 32 ∧ (∃ t, exec (.and 8 9 10) work = .next t) ∧
    (∃ t, exec (.or 8 9 10) work = .next t) ∧ (∃ t, exec (.xor 8 9 10) work = .next t) ∧
    (∃ t, exec (.nor 8 9 10) work = .next t) ∧ (∃ t, exec (.andi 8 9 65535) work = .next t) ∧
    (∃ t, exec (.ori 8 9 65535) work = .next t) ∧ ∃ t, exec (.xori 8 9 65535) work = .next t :=
  ⟨by decide, by decide, ⟨_, rfl⟩, ⟨_, rfl⟩, ⟨_, rfl⟩, ⟨_, rfl⟩, ⟨_, rfl⟩, ⟨_, rfl⟩, _, rfl⟩

theorem test_witness_ShiftsByAConstant : 0 ≤ 31 ∧ 31 ≤ 31 := by decide

theorem test_witness_ShiftsFillVacatedBits : (8 : Reg) ≠ 0 ∧ 31 ≤ 31 ∧ 31 < 32 ∧
    (∃ t, exec (.sll 8 9 31) work = .next t) ∧ (∃ t, exec (.srl 8 9 31) work = .next t) ∧
    ∃ t, exec (.sra 8 9 31) work = .next t :=
  ⟨by decide, by decide, by decide, ⟨_, rfl⟩, ⟨_, rfl⟩, _, rfl⟩

theorem test_witness_SetOnLessThanImmediate : fitsSigned16 (-32768) = true ∧ fitsSigned16 32767 = true := by decide

/-- Bit 31 alike, set on the left only, set on the right only. -/
theorem test_witness_SignedAndUnsignedOrderDiffer : (11 : Reg) ≠ 0 ∧ (∃ t, exec (.slt 11 8 9) work = .next t) ∧
    (∃ q, exec (.sltu 11 8 9) work = .next q) ∧ (work.readReg 9).getLsbD 31 = (work.readReg 10).getLsbD 31 ∧
    (work.readReg 8).getLsbD 31 = true ∧ (work.readReg 9).getLsbD 31 = false :=
  ⟨by decide, ⟨_, rfl⟩, ⟨_, rfl⟩, by decide⟩

/-- A word aligned and in range at both ends of memory, misaligned, and out of range; both fault orders. -/
theorem test_witness_LoadsReadAndExtend : fitsSigned16 (-32768) = true ∧
    (u (eaOf work 9 (-4096)) % 4 = 0 ∧ u (eaOf work 9 (-4096)) + 4 ≤ work.cfg.dmemSize) ∧
    (u (eaOf (work.writeReg 9 0x7FFFFFFC) 9 0) % 4 = 0 ∧ u (eaOf (work.writeReg 9 0x7FFFFFFC) 9 0) + 4 ≤ work.cfg.dmemSize) ∧
    (u (eaOf work 9 3) % 4 ≠ 0 ∧ u (eaOf work 9 3) + 4 ≤ work.cfg.dmemSize) ∧
    (u (eaOf (work.writeReg 9 0x80000000) 9 0) + 4 > work.cfg.dmemSize ∧ u (eaOf (work.writeReg 9 0x80000000) 9 0) % 4 = 0) ∧
    (u (eaOf (work.writeReg 9 0x7FFFFFFD) 9 0) % 4 ≠ 0 ∧ u (eaOf (work.writeReg 9 0x7FFFFFFD) 9 0) + 4 > work.cfg.dmemSize ∧
      work.cfg.faultOrder = .misalignedFirst) ∧
    ({ work with cfg := { Config.default with faultOrder := .rangeFirst } } : State).cfg.faultOrder = .rangeFirst := by decide

/-- Aligned and in range at the end of memory, misaligned, out of range, and both at once under either fault order. -/
theorem test_witness_StoresWriteTheirBytes : work.MemWf ∧ fitsSigned16 32767 = true ∧
    (u (eaOf work 10 2) % 4 = 0 ∧ u (eaOf work 10 2) % 2 = 0 ∧ u (eaOf work 10 2) + 4 ≤ work.cfg.dmemSize) ∧
    u (eaOf (work.writeReg 9 0x7FFFFFFC) 9 0) + 4 = work.cfg.dmemSize ∧
    (u (eaOf work 9 1) % 2 ≠ 0 ∧ u (eaOf work 9 1) % 4 ≠ 0 ∧ u (eaOf work 9 1) + 4 ≤ work.cfg.dmemSize) ∧
    (u (eaOf (work.writeReg 9 0x80000000) 9 0) % 4 = 0 ∧
      u (eaOf (work.writeReg 9 0x80000000) 9 0) + 1 > work.cfg.dmemSize) ∧
    (u (eaOf (work.writeReg 9 0x80000000) 9 1) % 2 ≠ 0 ∧
      u (eaOf (work.writeReg 9 0x80000000) 9 1) + 2 > work.cfg.dmemSize ∧ work.cfg.faultOrder = .misalignedFirst) ∧
    ({ work with cfg := { Config.default with faultOrder := .rangeFirst } } : State).cfg.faultOrder = .rangeFirst :=
  ⟨work_memWf, by decide⟩

theorem test_witness_LuiLoadsTheUpperHalf : fitsUnsigned16 65535 = true := by decide

theorem test_witness_LoadAfterStoreGivesTheValue : work.MemWf ∧ (11 : Reg) ≠ 0 ∧ work.status = .ready ∧
    (∃ t, exec (.sw 8 0 9) work = .next t ∧ t.status = .ready) ∧
    (∃ t, exec (.sh 8 0 10) work = .next t ∧ t.status = .ready) ∧
    ∃ t, exec (.sb 8 1 9) work = .next t ∧ t.status = .ready :=
  ⟨work_memWf, by decide, rfl, ⟨_, rfl, rfl⟩, ⟨_, rfl, rfl⟩, _, rfl, rfl⟩

theorem test_witness_MixedWidthAccessIsLittleEndian : work.MemWf ∧ work.cfg.endian = .little ∧ (11 : Reg) ≠ 0 ∧
    work.status = .ready ∧ (∃ t, exec (.sw 8 0 9) work = .next t ∧ t.status = .ready ∧
      u (t.readReg 9) = u (eaOf work 9 0)) ∧ 3 < 4 ∧ 2 < 4 ∧ 2 % 2 = 0 :=
  ⟨work_memWf, rfl, by decide, rfl, ⟨_, rfl, rfl, by decide⟩, by decide, by decide, by decide⟩

theorem test_witness_AlignedAccessesDoNotStraddle : Config.default.wf = true ∧
    ({ Config.default with mmioWindow := [⟨0x7FFFFFF0, 4⟩] } : Config).wf = true ∧ u 0x7FFFFFFC % 4 = 0 ∧ 3 < 4 := by decide

theorem test_witness_CanonicalMemoriesAreEqualData : Memory.wf word1000 = true ∧ Memory.wf [] = true ∧
    Memory.wf (Memory.write word1000 0x1000 0) = true ∧ Memory.wf [(1, 2), (1, 3)] = false ∧
    Memory.wf [(1, 0)] = false := by decide

/-- A target before and after, both bounds of the offset, both outcomes of the comparison. -/
theorem test_witness_BranchesCompareBits : fitsSigned16 (-32768) = true ∧ fitsSigned16 32767 = true ∧
    (32768 : Nat) < 2 ^ 32 ∧ (32767 : Int) = (32768 : Nat) - (u loaded.pc + 1) ∧ loaded.readReg 8 = loaded.readReg 9 ∧
    work.readReg 8 ≠ work.readReg 9 := by decide

theorem test_witness_JumpsGoToTheirTarget : 67108863 < 2 ^ 26 := by decide

theorem test_witness_JalThenJrReturns : ∃ t, exec (.jal 1) work = .next t ∧ t.readReg 31 = t.readReg 31 := ⟨_, rfl, rfl⟩

/-- The farthest labels a branch reaches each way. -/
theorem test_witness_BranchesReachTheirLabel : (32768 : Nat) < 2 ^ 32 ∧ branchOffset (u work.pc) 32768 = some 32767 ∧
    branchOffset (u work.pc) 32769 = none ∧ branchOffset 40000 7233 = some (-32768) ∧ loaded.readReg 8 = loaded.readReg 9 ∧
    work.readReg 8 ≠ work.readReg 9 := by decide

/-- One instruction that completes and one that faults. -/
theorem test_witness_OnlyTransfersMoveThePc : work.status = .ready ∧ kindOf (.sw 8 0 9) ≠ .transfer ∧
    (∃ t, exec (.sw 8 0 9) work = .next t ∧ t.status = .ready) ∧ ∃ t, exec (.div 8 0) work = .next t ∧ t.status ≠ .ready :=
  ⟨rfl, by decide, ⟨_, rfl, rfl⟩, _, rfl, by decide⟩

theorem test_witness_OnlyTheDestinationIsWritten : destOf (.add 0 9 10) = some 0 ∧ destOf (.jal 1) = some 31 ∧
    destOf (.jal 1) ≠ some 30 ∧ (∃ t, exec (.add 0 9 10) work = .next t) ∧ ∃ t, exec (.jal 1) work = .next t :=
  ⟨rfl, rfl, by decide, ⟨_, rfl⟩, _, rfl⟩

theorem test_witness_OnlyMultiplyAndDivideWriteHiLo : work.status = .ready ∧ kindOf (.add 8 9 10) ≠ .hilo ∧
    (∃ t, exec (.add 8 9 10) work = .next t) ∧ kindOf (.div 8 0) = .hilo ∧
    ∃ t, exec (.div 8 0) work = .next t ∧ t.status ≠ .ready :=
  ⟨rfl, by decide, ⟨_, rfl⟩, rfl, _, rfl, by decide⟩

theorem test_witness_OnlyStoresChangeMemory : kindOf (.lw 8 0 9) ≠ .store ∧ ∃ t, exec (.lw 8 0 9) work = .next t :=
  ⟨by decide, _, rfl⟩

theorem test_witness_LmaFollowsCompletedAccesses : work.status = .ready ∧ (kindOf (.add 8 9 10) ≠ .load ∧
    kindOf (.add 8 9 10) ≠ .store) ∧ (∃ t, exec (.lw 8 1 9) work = .next t ∧ t.status ≠ .ready) ∧
    (∃ t, exec (.sw 8 0 9) work = .next t ∧ t.status = .ready) ∧
    (∃ t, exec (.lh 8 0 10) work = .next t ∧ t.status = .ready) ∧
    ∃ t, exec (.lb 8 0 9) work = .next t ∧ t.status = .ready :=
  ⟨rfl, by decide, ⟨_, rfl, by decide⟩, ⟨_, rfl, rfl⟩, ⟨_, rfl, rfl⟩, _, rfl, rfl⟩

theorem test_witness_NoStepChangesTheProgram : ∃ t, step work = .next t := ⟨_, rfl⟩

theorem test_witness_ExecutorIgnoresTheHost : work.status = .ready ∧ Controller.running ≠ .unloaded ∧
    ∃ t, step work = .next t := ⟨rfl, by decide, _, rfl⟩

theorem test_witness_StepCallMovesTheController : work.controller.accepts = true ∧ work.status = .ready ∧
    State.reset.controller.accepts = false := by decide

/-- To the end, to a breakpoint on the second instruction, and past one on the first that was already reported. -/
theorem test_witness_RunStopsAtBreakpointOrEnd : work.controller.accepts = true ∧ work.status = .ready ∧
    ((work.runCall 3).map fun r => (r.2, r.1.controller, r.1.pc)) = some (some .termination, .halted, 2) ∧
    (((work.setBreakpoints [1]).runCall 3).map fun r => (r.2, r.1.controller, r.1.pc)) =
      some (some .breakpoint, .pausedAtBreakpoint, 1) ∧
    (((({ work with controller := .pausedAtBreakpoint } : State).setBreakpoints [0]).runCall 3).map fun r => r.2) =
      some (some .termination) := by decide

theorem test_witness_SetRegisterWritesOneRegister : work.controller.accepts = true := by decide

/-- The last word of memory; an unaligned address, one past the end, and one in the window. -/
theorem test_witness_SetMemoryWordWritesPlainMemory : work.MemWf ∧ work.cfg.wf = true ∧ work.controller.accepts = true ∧
    (u 0x7FFFFFFC % 4 = 0 ∧ u 0x7FFFFFFC + 4 ≤ work.cfg.dmemSize ∧ work.cfg.inWindow (u 0x7FFFFFFC) = false) ∧
    ¬ u 0x1001 % 4 = 0 ∧ ¬ u 0x80000000 + 4 ≤ work.cfg.dmemSize ∧
    ({ Config.default with mmioWindow := [⟨0x1000, 1⟩] } : Config).inWindow 0x1000 = true :=
  ⟨work_memWf, by decide⟩

/-- Two ways to drive `prog` to its end. -/
theorem test_witness_FinalStateIsTheProgramsOwn : work.status = .ready ∧
    (∃ t, work.calls [.step, .setBreakpoints [0], .run 2] = some t ∧ t.status ≠ .ready) ∧
    ∃ q, work.calls [.run 3] = some q ∧ q.status ≠ .ready :=
  ⟨rfl, ⟨_, rfl, by decide⟩, _, rfl, by decide⟩

theorem test_witness_MoveAndConstantLowering : (-2 ^ 31 : Int) ≤ -2 ^ 31 ∧ (-2 ^ 31 : Int) ≤ 2 ^ 32 - 1 ∧
    (-32768 ≤ (32767 : Int) ∧ (32767 : Int) ≤ 32767) ∧ ¬ (32768 : Int) ≤ 32767 ∧ (4294967295 : Nat) < 2 ^ 32 := by decide

/-- The farthest targets; the operands less, equal and greater. -/
theorem test_witness_CompareAndBranchLowering : (32769 : Nat) < 2 ^ 32 ∧
    fitsSigned16 ((32769 : Nat) - (u work.pc + 2)) = true ∧ fitsSigned16 ((0 : Nat) - (u work.pc + 2)) = true ∧
    sgn (work.readReg 8) < sgn (work.readReg 9) ∧ sgn (work.readReg 10) > sgn (work.readReg 9) ∧
    sgn (work.readReg 11) = sgn (work.readReg 12) := by decide

end Sys2Proof.Tests
end

-- Proofs of the encoding statements: the decoder against the encoder and the opcode table.
section
namespace Sys2Proof

/-! ### The decoder's zero checks (R92) -/

@[simp] theorem noRs_iff {w : Word} : noRs w = true ↔ rsOf w = 0 := by simp [noRs]

@[simp] theorem noShamt_iff {w : Word} : noShamt w = true ↔ shamtOf w = 0 := by simp [noShamt]

@[simp] theorem noRdShamt_iff {w : Word} : noRdShamt w = true ↔ rdOf w = 0 ∧ shamtOf w = 0 := by simp [noRdShamt]

@[simp] theorem noRtRdShamt_iff {w : Word} :
    noRtRdShamt w = true ↔ rtOf w = 0 ∧ rdOf w = 0 ∧ shamtOf w = 0 := by simp [noRtRdShamt]

@[simp] theorem noRsRtShamt_iff {w : Word} :
    noRsRtShamt w = true ↔ rsOf w = 0 ∧ rtOf w = 0 ∧ shamtOf w = 0 := by simp [noRsRtShamt, and_assoc]

theorem requireZero_eq_ok {m : String} {zero : Bool} {i j : Instr} :
    requireZero m zero i = .ok j ↔ zero = true ∧ i = j := by
  cases zero <;> simp [requireZero]

/-! ### A field survives its operand (R78), the converse of `signedField_toInt` and the like -/

@[simp] theorem signedField_of_toInt (x : BitVec 16) : signedField x.toInt = x := BitVec.ofInt_toInt

@[simp] theorem unsignedField_of_toNat (x : BitVec 16) : unsignedField x.toNat = x := by simp [unsignedField]

@[simp] theorem shamtField_of_toNat (x : BitVec 5) : shamtField x.toNat = x := by simp [shamtField]

@[simp] theorem indexField_of_toNat (x : BitVec 26) : indexField x.toNat = x := by simp [indexField]

/-! ### A word that decodes is the encoding of its instruction (R77) -/

/-- An opcode or function code as the literal the decoder matched its number with. -/
theorem eq_ofNat_of_toNat_eq {n k : Nat} {x : BitVec n} (h : x.toNat = k) : x = BitVec.ofNat n k := by simp [← h]

theorem encode_of_decodeSpecial {w : Word} {i : Instr} (hop : opOf w = 0) (h : decodeSpecial w = .ok i) :
    encode i = w := by
  have hw := wordR_of_fields hop
  unfold decodeSpecial at h
  split at h
  case h_21 => cases h -- a reserved function code
  all_goals
    next hfunct =>
    obtain ⟨hzero, rfl⟩ := requireZero_eq_ok.mp h
    simp only [noRs_iff, noShamt_iff, noRdShamt_iff, noRtRdShamt_iff, noRsRtShamt_iff] at hzero
    simpa [encode, eq_ofNat_of_toNat_eq hfunct, hzero] using hw

theorem encode_of_decode {w : Word} {i : Instr} (h : decode w = .ok i) : encode i = w := by
  have hwI := wordI_of_fields w
  have hwJ := wordJ_of_fields w
  unfold decode at h
  split at h
  case h_1 hop => exact encode_of_decodeSpecial (eq_ofNat_of_toNat_eq hop) h
  case h_13 hop => -- `lui`, the one I-format instruction with an unused field
    obtain ⟨hzero, rfl⟩ := requireZero_eq_ok.mp h
    simpa [encode, eq_ofNat_of_toNat_eq hop, noRs_iff.mp hzero] using hwI
  case h_20 => cases h -- a reserved opcode
  case h_2 hop | h_3 hop => cases h; simpa [encode, eq_ofNat_of_toNat_eq hop] using hwJ -- `j`, `jal`
  all_goals
    next hop =>
    cases h
    simpa [encode, eq_ofNat_of_toNat_eq hop] using hwI

/-! ### A word that decodes matches its instruction's row (R92) -/

theorem encodesInRow (i : Instr) : Laws.EncodesInRow.Statement i := by
  cases i with
  | add => exact Laws.EncodesInRow.add ..
  | addu => exact Laws.EncodesInRow.addu ..
  | sub => exact Laws.EncodesInRow.sub ..
  | subu => exact Laws.EncodesInRow.subu ..
  | addi => exact Laws.EncodesInRow.addi ..
  | addiu => exact Laws.EncodesInRow.addiu ..
  | mult => exact Laws.EncodesInRow.mult ..
  | multu => exact Laws.EncodesInRow.multu ..
  | div => exact Laws.EncodesInRow.div ..
  | divu => exact Laws.EncodesInRow.divu ..
  | mfhi => exact Laws.EncodesInRow.mfhi ..
  | mflo => exact Laws.EncodesInRow.mflo ..
  | and => exact Laws.EncodesInRow.and ..
  | or => exact Laws.EncodesInRow.or ..
  | xor => exact Laws.EncodesInRow.xor ..
  | nor => exact Laws.EncodesInRow.nor ..
  | andi => exact Laws.EncodesInRow.andi ..
  | ori => exact Laws.EncodesInRow.ori ..
  | xori => exact Laws.EncodesInRow.xori ..
  | sll => exact Laws.EncodesInRow.sll ..
  | srl => exact Laws.EncodesInRow.srl ..
  | sra => exact Laws.EncodesInRow.sra ..
  | slt => exact Laws.EncodesInRow.slt ..
  | sltu => exact Laws.EncodesInRow.sltu ..
  | slti => exact Laws.EncodesInRow.slti ..
  | sltiu => exact Laws.EncodesInRow.sltiu ..
  | lw => exact Laws.EncodesInRow.lw ..
  | sw => exact Laws.EncodesInRow.sw ..
  | lb => exact Laws.EncodesInRow.lb ..
  | sb => exact Laws.EncodesInRow.sb ..
  | lh => exact Laws.EncodesInRow.lh ..
  | sh => exact Laws.EncodesInRow.sh ..
  | lui => exact Laws.EncodesInRow.lui ..
  | beq => exact Laws.EncodesInRow.beq ..
  | bne => exact Laws.EncodesInRow.bne ..
  | j => exact Laws.EncodesInRow.j ..
  | jal => exact Laws.EncodesInRow.jal ..
  | jr => exact Laws.EncodesInRow.jr ..

theorem opcodeTable_mnemonics_nodup : (opcodeTable.map Row.mnemonic).Nodup := by decide

/-- The word is `encode i`, which lies in a row with `i`'s mnemonic; no other row has that mnemonic. -/
theorem matches_of_decode {w : Word} {i : Instr} {r : Row} (hr : r ∈ opcodeTable) (h : decode w = .ok i)
    (hm : i.mnemonic = r.mnemonic) : r.matches w = true := by
  obtain ⟨q, hq, hqm, hmatch⟩ := encodesInRow i
  rw [encode_of_decode h] at hmatch
  have hqr : q = r := List.inj_on_of_nodup_map opcodeTable_mnemonics_nodup hq hr (hqm.trans hm)
  exact hqr ▸ hmatch

/-! ### A word that matches a row decodes to the row's instruction (R92) -/

/-- Where a mask compares every bit of a field, the word's field is the pattern's. -/
theorem field_eq_of_and_eq {w mask pattern : Word} {start len : Nat} (h : w &&& mask = pattern)
    (hmask : mask.extractLsb' start len = BitVec.allOnes len) :
    w.extractLsb' start len = pattern.extractLsb' start len := by
  rw [← h, BitVec.extractLsb'_and, hmask, BitVec.and_allOnes]

theorem regField_eq_zero_of_and_eq {w mask pattern : Word} {start : Nat} (h : w &&& mask = pattern)
    (hmask : mask.extractLsb' start 5 = BitVec.allOnes 5) (hpattern : pattern.extractLsb' start 5 = 0) :
    (w.extractLsb' start 5).toFin = 0 := by
  rw [field_eq_of_and_eq h hmask, hpattern]
  rfl

/-- The fields a row's mask compares are those its arm of the decoder looks at: with their values from the pattern, the
decoder takes that arm and its zero check passes. -/
theorem decode_of_matches {w : Word} {r : Row} (hr : r ∈ opcodeTable) (h : r.matches w = true) :
    ∃ i, decode w = .ok i ∧ i.mnemonic = r.mnemonic := by
  have h : w &&& r.mask = r.pattern := by simpa [Row.matches] using h
  have hop : _ → opOf w = _ := field_eq_of_and_eq h
  have hfunct : _ → functOf w = _ := field_eq_of_and_eq h
  have hshamt : _ → shamtOf w = _ := field_eq_of_and_eq h
  have hrs : _ → _ → rsOf w = 0 := regField_eq_zero_of_and_eq h
  have hrt : _ → _ → rtOf w = 0 := regField_eq_zero_of_and_eq h
  have hrd : _ → _ → rdOf w = 0 := regField_eq_zero_of_and_eq h
  simp only [opcodeTable, List.mem_append] at hr
  rcases hr with (hr | hr) | hr
  all_goals
    fin_cases hr <;>
      simp (disch := decide) [decode, decodeSpecial, requireZero, Instr.mnemonic, hop, hfunct, hshamt, hrs, hrt, hrd]

/-- Settles O8: a matching word has the fields its row's arm of the decoder asks for; a word that decodes is the encoding
of its instruction, which lies in the row of its mnemonic. -/
theorem decodeFollowsTheOpcodeTable : Obligations.DecodeFollowsTheOpcodeTable := by
  intro w r hr
  exact ⟨decode_of_matches hr, fun ⟨_, hdec, hm⟩ => matches_of_decode hr hdec hm⟩

end Sys2Proof
end

-- Proofs of the arithmetic statements: the words of an instruction by its format, and the wrapped sums and differences.
section
namespace Sys2Proof

/-! ### Decoding an encoded instruction (R77): the fields of its word, and its operands back from their fields (R78) -/

@[simp] theorem decode_wordR (rs rt rd : Reg) (sh : BitVec 5) (f : BitVec 6) :
    decode (wordR rs rt rd sh f) = decodeSpecial (wordR rs rt rd sh f) := by
  simp [decode]

theorem decode_encode {i : Instr} (h : i.wf = true) : decode (encode i) = .ok i := by
  cases i
  case addi | addiu | slti | sltiu | lw | sw | lb | sb | lh | sh | beq | bne =>
    simp [encode, decode, signedField_toInt h]
  case andi | ori | xori | lui => simp [encode, decode, requireZero, unsignedField_toNat h]
  case sll | srl | sra => simp [encode, decodeSpecial, requireZero, shamtField_toNat h]
  case j | jal => simp [encode, decode, indexField_toNat h]
  all_goals simp [encode, decodeSpecial, requireZero] -- registers alone, R format

end Sys2Proof

namespace Sys2Proof.Machine

/-! ### The word of a format as the rules write it (R80, R81), and what an instruction of that format is encoded in -/

theorem wordR_eq_formatR (rs rt rd : Reg) (sh : BitVec 5) (f : BitVec 6) :
    wordR rs rt rd sh f = formatR rs rt rd sh.toNat f.toNat := by
  rw [formatR, ← wordR_toNat, BitVec.ofNat_toNat, BitVec.setWidth_eq]

theorem signedField_toNat (imm : Int) : (signedField imm).toNat = (imm % 2 ^ 16).toNat := BitVec.toNat_ofInt ..

theorem wordI_eq_formatI (op : BitVec 6) (rs rt : Reg) (imm : Int) :
    wordI op rs rt (signedField imm) = formatI op.toNat rs rt imm := by
  rw [formatI, ← signedField_toNat, ← wordI_toNat, BitVec.ofNat_toNat, BitVec.setWidth_eq]

/-- A three-register instruction of the R format. -/
theorem encodedIn_register {i : Instr} {rs rt rd : Reg} (f : BitVec 6) (hwf : i.wf = true)
    (henc : encode i = wordR rs rt rd 0 f) :
    EncodedIn i (formatR rs rt rd 0 f.toNat) (f.setWidth 32) 0xFC0007FF where
  word := henc.trans (wordR_eq_formatR ..)
  row := henc ▸ and_mask_register ..
  decodes := decode_encode hwf

/-- An instruction of the I format with a sign-extended immediate. -/
theorem encodedIn_signedImm {i : Instr} {rs rt : Reg} {imm : Int} (op : BitVec 6) (hwf : i.wf = true)
    (henc : encode i = wordI op rs rt (signedField imm)) :
    EncodedIn i (formatI op.toNat rs rt imm) (op ++ 0#26) 0xFC000000 where
  word := henc.trans (wordI_eq_formatI ..)
  row := henc ▸ and_mask_opcode ..
  decodes := decode_encode hwf

/-- An instruction whose meaning is to write one register and go on. -/
theorem executes_of_finish {i : Instr} {s : State} {r : Reg} {v : Word} (h : exec i s = s.finish r v) :
    Executes i s fun t => s.WritesReg t r v := by
  rw [Executes, h]
  exact finish_spec s r v

/-! ### The statements -/

/-- R101's identity: both sums, signed and unsigned, are the bit-vector sum. -/
theorem trunc32_sgn_add (a b : Word) : trunc32 (sgn a + sgn b) = trunc32 (u a + u b) :=
  calc trunc32 (sgn a + sgn b)
    _ = a + b := by simp [BitVec.ofInt_add]
    _ = trunc32 (u a + u b) := (sum32_eq a b).symm

/-- Settles O18: each unsigned form has the meaning of its signed form, and both readings of a sum wrap to the same word. -/
theorem unsignedArithmeticActsAsSigned : Obligations.UnsignedArithmeticActsAsSigned :=
  ⟨fun _ _ _ _ => ⟨rfl, rfl⟩, fun _ _ _ _ => rfl, trunc32_sgn_add⟩

/-- Settles O16: the four are three-register words, and each finishes with its sum or difference. -/
theorem addAndSubtractWrap : Obligations.AddAndSubtractWrap := by
  intro s rd rs rt sum difference
  refine ⟨⟨encodedIn_register 0x20 rfl rfl, ?_⟩, ⟨encodedIn_register 0x21 rfl rfl, ?_⟩,
    ⟨encodedIn_register 0x22 rfl rfl, ?_⟩, encodedIn_register 0x23 rfl rfl, ?_⟩
  all_goals exact executes_of_finish rfl

/-- Settles O17: both are I-format words with an immediate in range, and each finishes with its sum. -/
theorem addImmediateSignExtends : Obligations.AddImmediateSignExtends := by
  intro s rt rs imm himm sum
  refine ⟨⟨encodedIn_signedImm 0x08 himm rfl, ?_⟩, encodedIn_signedImm 0x09 himm rfl, ?_⟩
  all_goals exact executes_of_finish rfl

end Sys2Proof.Machine
end

-- Proofs of the multiply and divide statements: the words of two source registers, and the quotient and remainder.
section
namespace Sys2Proof.Machine

/-! ### The word of two source registers (R80), and what an instruction that writes HI and LO executes as -/

/-- A two-source instruction of the R format, `rd` and `shamt` zero. -/
theorem encodedIn_sources {i : Instr} {rs rt : Reg} (f : BitVec 6) (hwf : i.wf = true)
    (henc : encode i = wordR rs rt 0 0 f) :
    EncodedIn i (formatR rs rt 0 0 f.toNat) (f.setWidth 32) 0xFC00FFFF where
  word := henc.trans (wordR_eq_formatR ..)
  row := henc ▸ and_mask_sources ..
  decodes := decode_encode hwf

/-- An instruction whose meaning is to write HI and LO and go on. -/
theorem executes_of_finishHiLo {i : Instr} {s : State} {h l : Word} (he : exec i s = s.finishHiLo h l) :
    Executes i s fun t => s.WritesHiLo t h l := by
  rw [Executes, he]
  exact finishHiLo_spec s h l

/-- A division by 0 faults, whatever the quotient and remainder would be. -/
theorem executes_of_finishDivision_zero {i : Instr} {s : State} {d : Word} {qr : Word × Word}
    (he : exec i s = s.finishDivision d qr) (hd : d = 0) :
    Executes i s fun t => s.Faulted t .divisionByZero := by
  subst hd
  exact ⟨_, he.trans (finishDivision_zero s qr), rfl⟩

/-- Any other division writes its remainder to HI and its quotient to LO. -/
theorem executes_of_finishDivision_nonzero {i : Instr} {s : State} {d : Word} {qr : Word × Word}
    (he : exec i s = s.finishDivision d qr) (hd : d ≠ 0) :
    Executes i s fun t => s.WritesHiLo t qr.2 qr.1 :=
  executes_of_finishHiLo (he.trans (finishDivision_nonzero s qr hd))

/-! ### Quotient and remainder (R111, R112) -/

theorem divRemSigned_eq (a b : Word) :
    divRemSigned a b = (trunc32 ((sgn a).tdiv (sgn b)), trunc32 (sgn a - (sgn a).tdiv (sgn b) * sgn b)) := rfl

theorem divRemUnsigned_eq (a b : Word) :
    divRemUnsigned a b = (BitVec.ofNat 32 (u a / u b), BitVec.ofNat 32 (u a % u b)) := by
  have hrem : (u a - (u a / u b : Nat) * u b : Int) = (u a % u b : Nat) := by
    rw [Int.natCast_ediv, Int.natCast_emod, Int.emod_def, mul_comm]
  simp only [divRemUnsigned, trunc32, hrem, BitVec.ofInt_natCast]

theorem divOverflows_iff {a b : Word} : divOverflows a b = true ↔ a = 0x80000000 ∧ b = 0xFFFFFFFF := by
  simp [divOverflows]

/-- R112's overflow pair at the default `DIV_OVF` is what `DIVREM` wraps to, so the overflow case is no exception. -/
theorem quotRemSigned_default {c : Config} (hc : c.divOvf = (0x80000000, 0x00000000)) (a b : Word) :
    quotRemSigned c a b = divRemSigned a b := by
  unfold quotRemSigned
  split
  · next hovf =>
    obtain ⟨rfl, rfl⟩ := divOverflows_iff.mp hovf
    rw [hc]
    decide
  · rfl

/-! ### The statements -/

/-- Settles O19: both are two-source words, and each finishes with the halves of its product. -/
theorem multiplyWritesBothHalves : Obligations.MultiplyWritesBothHalves := by
  intro s rs rt p q
  refine ⟨⟨encodedIn_sources 0x18 rfl rfl, ?_⟩, encodedIn_sources 0x19 rfl rfl, ?_⟩
  all_goals exact executes_of_finishHiLo rfl

/-- Settles O21: a zero divisor faults; otherwise, at the default `DIV_OVF`, the results are `DIVREM`'s. -/
theorem signedDivision : Obligations.SignedDivision := by
  intro s rs rt a b
  refine ⟨encodedIn_sources 0x1A rfl rfl, executes_of_finishDivision_zero rfl, fun hd hovf => ?_⟩
  have hexec := executes_of_finishDivision_nonzero (i := .div rs rt) rfl hd
  rwa [quotRemSigned_default hovf, divRemSigned_eq] at hexec

/-- Settles O23: a zero divisor faults; otherwise the results are the natural quotient and remainder. -/
theorem unsignedDivision : Obligations.UnsignedDivision := by
  intro s rs rt a b
  refine ⟨encodedIn_sources 0x1B rfl rfl, executes_of_finishDivision_zero rfl, fun hd => ?_⟩
  have hexec := executes_of_finishDivision_nonzero (i := .divu rs rt) rfl hd
  rwa [divRemUnsigned_eq] at hexec

end Sys2Proof.Machine
end

-- Proofs of the logical statements: the word of a zero-extended immediate, and the bitwise results.
section
namespace Sys2Proof.Machine

/-! ### The word of a zero-extended immediate (R78, R81) -/

/-- An unsigned operand's 16 bits are those of the same number read as signed, so one I-format word serves both. -/
theorem signedField_natCast (imm : Nat) : signedField imm = unsignedField imm := BitVec.ofInt_natCast ..

/-- An instruction of the I format with a zero-extended immediate. -/
theorem encodedIn_unsignedImm {i : Instr} {rs rt : Reg} {imm : Nat} (op : BitVec 6) (hwf : i.wf = true)
    (henc : encode i = wordI op rs rt (unsignedField imm)) :
    EncodedIn i (formatI op.toNat rs rt imm) (op ++ 0#26) 0xFC000000 :=
  encodedIn_signedImm op hwf (by rw [henc, signedField_natCast])

/-! ### The statements -/

/-- Settles O26: the four are three-register words, and each finishes with its bitwise result. -/
theorem logicalRegisterForms : Obligations.LogicalRegisterForms := by
  intro s rd rs rt a b
  refine ⟨⟨encodedIn_register 0x24 rfl rfl, ?_⟩, ⟨encodedIn_register 0x25 rfl rfl, ?_⟩,
    ⟨encodedIn_register 0x26 rfl rfl, ?_⟩, encodedIn_register 0x27 rfl rfl, ?_⟩
  all_goals exact executes_of_finish rfl

/-- Settles O27: the three are I-format words with an immediate in range, and each finishes with its bitwise result. -/
theorem logicalImmediateForms : Obligations.LogicalImmediateForms := by
  intro s rt rs imm himm a
  refine ⟨⟨encodedIn_unsignedImm 0x0C himm rfl, ?_⟩, ⟨encodedIn_unsignedImm 0x0D himm rfl, ?_⟩,
    encodedIn_unsignedImm 0x0E himm rfl, ?_⟩
  all_goals exact executes_of_finish rfl

end Sys2Proof.Machine
end

-- Proofs of the shift statements: the word of a shift by a constant, and the amount its field gives back.
section
namespace Sys2Proof.Machine

/-! ### The word of a shift by a constant (R80) -/

/-- A shift of the R format, `rs` zero, with an amount in range. -/
theorem encodedIn_shift {i : Instr} {rt rd : Reg} {shamt : Nat} (f : BitVec 6) (hshamt : fitsShamt shamt = true)
    (hwf : i.wf = true) (henc : encode i = wordR 0 rt rd (shamtField shamt) f) :
    EncodedIn i (formatR 0 rt rd shamt f.toNat) (f.setWidth 32) 0xFFE0003F where
  word := by rw [henc, wordR_eq_formatR, shamtField_toNat hshamt]
  row := henc ▸ and_mask_shift ..
  decodes := decode_encode hwf

/-! ### What the shifts finish with, the amount in range (R135 to R137) -/

section
variable {shamt : Nat} (hshamt : fitsShamt shamt = true) (rd rt : Reg) (s : State)
include hshamt

theorem shiftAmount_eq : shiftAmount shamt = shamt := shamtField_toNat hshamt

theorem exec_sll : exec (.sll rd rt shamt) s = s.finish rd (shiftLeft (s.readReg rt) shamt) := by
  rw [exec, execSll, shiftAmount_eq hshamt]

theorem exec_srl : exec (.srl rd rt shamt) s = s.finish rd (shiftRightLogical (s.readReg rt) shamt) := by
  rw [exec, execSrl, shiftAmount_eq hshamt]

theorem exec_sra : exec (.sra rd rt shamt) s = s.finish rd (shiftRightArith (s.readReg rt) shamt) := by
  rw [exec, execSra, shiftAmount_eq hshamt]

end

/-- R12's floor of an unsigned quotient is the quotient of naturals. -/
theorem shiftRightLogical_eq_ofNat (a : Word) (k : Nat) : shiftRightLogical a k = BitVec.ofNat 32 (u a / 2 ^ k) := by
  have hquot : (u a / 2 ^ k : Int) = (u a / 2 ^ k : Nat) := by norm_cast
  rw [shiftRightLogical, hquot, trunc32, BitVec.ofInt_natCast]

/-! ### The statements -/

/-- Settles O29: the three are shift words with an amount in range, and each finishes with its shift by that amount. -/
theorem shiftsByAConstant : Obligations.ShiftsByAConstant := by
  intro s rd rt shamt hle a
  have hshamt := fitsShamt_iff.mpr hle
  have hsrl := exec_srl hshamt rd rt s
  rw [shiftRightLogical_eq_ofNat] at hsrl
  exact ⟨⟨encodedIn_shift 0x00 hshamt hshamt rfl, executes_of_finish (exec_sll hshamt rd rt s)⟩,
    ⟨encodedIn_shift 0x02 hshamt hshamt rfl, executes_of_finish hsrl⟩,
    encodedIn_shift 0x03 hshamt hshamt rfl, executes_of_finish (exec_sra hshamt rd rt s)⟩

end Sys2Proof.Machine
end

-- Proofs of the comparison statements: the word a comparison writes, and what the set-on-less-than forms finish with.
section
namespace Sys2Proof.Machine

/-! ### The word a comparison writes (R140) -/

theorem condWord_decide (p : Prop) [Decidable p] : condWord (decide p) = if p then 1 else 0 := by
  simp [condWord]

theorem condWord_lessSigned (a b : Word) : condWord (lessSigned a b) = if sgn a < sgn b then 1 else 0 :=
  condWord_decide (sgn a < sgn b)

theorem condWord_lessUnsigned (a b : Word) : condWord (lessUnsigned a b) = if u a < u b then 1 else 0 :=
  condWord_decide (u a < u b)

/-! ### What the register forms finish with (R141, R142) -/

theorem exec_slt (rd rs rt : Reg) (s : State) :
    exec (.slt rd rs rt) s = s.finish rd (if sgn (s.readReg rs) < sgn (s.readReg rt) then 1 else 0) := by
  rw [exec, execSlt, condWord_lessSigned]

theorem exec_sltu (rd rs rt : Reg) (s : State) :
    exec (.sltu rd rs rt) s = s.finish rd (if u (s.readReg rs) < u (s.readReg rt) then 1 else 0) := by
  rw [exec, execSltu, condWord_lessUnsigned]

/-! ### The statements -/

/-- Settles O31: both are three-register words, and each finishes with 1 or 0 by its order. -/
theorem setOnLessThan : Obligations.SetOnLessThan := by
  intro s rd rs rt a b
  exact ⟨⟨encodedIn_register 0x2A rfl rfl, executes_of_finish (exec_slt rd rs rt s)⟩,
    encodedIn_register 0x2B rfl rfl, executes_of_finish (exec_sltu rd rs rt s)⟩

end Sys2Proof.Machine
end

-- Proofs of the load and store statements: the word of `lui`, and its operand.
section
namespace Sys2Proof.Machine

/-! ### The operand of `lui` (R86) -/

/-- Sixteen zeros appended is a product by `2 ^ 16`. -/
theorem upperImm_eq_ofNat (imm : Nat) : upperImm imm = BitVec.ofNat 32 (imm * 65536) := by
  apply BitVec.eq_of_toNat_eq
  simp only [upperImm, unsignedField, append_toNat, BitVec.toNat_ofNat]
  omega

theorem exec_lui (rt : Reg) (imm : Nat) (s : State) :
    exec (.lui rt imm) s = s.finish rt (BitVec.ofNat 32 (imm * 65536)) := by
  rw [exec, execLui, upperImm_eq_ofNat]

/-! ### The word of `lui` (R81): the I format with `rs` zero, which its row's mask compares (R92) -/

theorem encodedIn_lui {rt : Reg} {imm : Nat} (himm : fitsUnsigned16 imm = true) :
    EncodedIn (.lui rt imm) (formatI 0x0F 0 rt imm) 0x3C000000 0xFFE00000 where
  word := (encodedIn_unsignedImm (i := .lui rt imm) 0x0F himm rfl).word
  row := and_mask_lui ..
  decodes := decode_encode himm

/-! ### The statements -/

/-- Settles O36: an immediate in range has its word, and the instruction finishes with the immediate times `2 ^ 16`. -/
theorem luiLoadsTheUpperHalf : Obligations.LuiLoadsTheUpperHalf := by
  intro s rt imm himm
  exact ⟨encodedIn_lui himm, executes_of_finish (exec_lui rt imm s)⟩

end Sys2Proof.Machine
end

-- Proofs of the control transfer statements: the words of the jumps, the targets of their operands, and the branches.
section
namespace Sys2Proof.Machine

/-! ### The words of the jumps (R80, R82) -/

theorem wordJ_eq_formatJ (op : BitVec 6) (index : BitVec 26) : wordJ op index = formatJ op.toNat index.toNat := by
  rw [formatJ, ← wordJ_toNat, BitVec.ofNat_toNat, BitVec.setWidth_eq]

/-- An instruction of the J format with an index in range. -/
theorem encodedIn_jump {i : Instr} {index : Nat} (op : BitVec 6) (hindex : fitsIndex26 index = true)
    (hwf : i.wf = true) (henc : encode i = wordJ op (indexField index)) :
    EncodedIn i (formatJ op.toNat index) (op ++ 0#26) 0xFC000000 where
  word := by rw [henc, wordJ_eq_formatJ, indexField_toNat hindex]
  row := henc ▸ and_mask_jump ..
  decodes := decode_encode hwf

theorem encodedIn_jr (rs : Reg) : EncodedIn (.jr rs) (formatR rs 0 0 0 0x08) 0x00000008 0xFC1FFFFF where
  word := wordR_eq_formatR ..
  row := and_mask_jr ..
  decodes := decode_encode rfl

/-! ### The targets, the operand in range (R88, R89) -/

theorem branchTarget_eq (s : State) {offset : Int} (hoffset : fitsSigned16 offset = true) :
    s.branchTarget offset = trunc32 (u s.pc + 1 + offset) := by
  rw [State.branchTarget, signedField_toInt hoffset]

/-- R78(d)'s offset of a label, added to the next index, gives the label's index back. -/
theorem trunc32_add_labelOffset (pc : Word) {T : Nat} (hT : T < 2 ^ 32) :
    u (trunc32 (u pc + 1 + (T - (u pc + 1)))) = T := by
  rw [add_sub_cancel, u, trunc32, BitVec.ofInt_natCast, BitVec.toNat_ofNat, Nat.mod_eq_of_lt hT]

theorem jumpTarget_eq {index : Nat} (hindex : fitsIndex26 index = true) : jumpTarget index = BitVec.ofNat 32 index := by
  rw [jumpTarget, ← BitVec.ofNat_toNat, indexField_toNat hindex]

/-! ### What the transfers execute as (R167 to R173) -/

/-- An instruction whose meaning is to branch on a condition. -/
theorem executes_of_branch {i : Instr} {s : State} {p : Prop} [Decidable p] {offset : Int}
    (hoffset : fitsSigned16 offset = true) (h : exec i s = s.branch (decide p) offset) :
    Executes i s fun t => s.JumpsTo t (if p then trunc32 (u s.pc + 1 + offset) else trunc32 (u s.pc + 1)) := by
  simpa only [Executes, h, branchTarget_eq s hoffset, decide_eq_true_eq] using branch_spec s (decide p) offset

theorem exec_beq (rs rt : Reg) (offset : Int) (s : State) :
    exec (.beq rs rt offset) s = s.branch (decide (s.readReg rs = s.readReg rt)) offset := rfl

theorem exec_bne (rs rt : Reg) (offset : Int) (s : State) :
    exec (.bne rs rt offset) s = s.branch (decide (s.readReg rs ≠ s.readReg rt)) offset := by
  rw [exec, execBne, equalBits, decide_not]

theorem exec_j {index : Nat} (hindex : fitsIndex26 index = true) (s : State) :
    exec (.j index) s = .next (s.setPc (BitVec.ofNat 32 index)) := by
  rw [exec, execJ, jumpTarget_eq hindex]

theorem exec_jal {index : Nat} (hindex : fitsIndex26 index = true) (s : State) :
    exec (.jal index) s = .next ((s.writeReg 31 s.nextPc).setPc (BitVec.ofNat 32 index)) := by
  rw [exec, execJal, jumpTarget_eq hindex]

theorem exec_jr (rs : Reg) (s : State) : exec (.jr rs) s = .next (s.setPc (s.readReg rs)) := rfl

/-! ### The statements -/

/-- Settles O41: both are I-format words with an offset in range, and each branches on its comparison. -/
theorem branchesCompareBits : Obligations.BranchesCompareBits := by
  intro s rs rt offset hoffset target next
  refine ⟨?_, ⟨encodedIn_signedImm 0x04 hoffset rfl, executes_of_branch hoffset (exec_beq rs rt offset s)⟩,
    encodedIn_signedImm 0x05 hoffset rfl, executes_of_branch hoffset (exec_bne rs rt offset s)⟩
  rintro T hT rfl
  exact trunc32_add_labelOffset s.pc hT

/-- Settles O42: `j` and `jal` are J-format words with an index in range, `jr` a word of one register; `j` and `jr` set
`pc`, and `jal` also links. -/
theorem jumpsGoToTheirTarget : Obligations.JumpsGoToTheirTarget := by
  refine ⟨fun s index hlt => ?_, fun s rs => ⟨encodedIn_jr rs, _, exec_jr rs s, setPc_spec ..⟩⟩
  have hindex := fitsIndex26_iff.mpr hlt
  exact ⟨⟨encodedIn_jump 0x02 hindex hindex rfl, _, exec_j hindex s, setPc_spec ..⟩,
    encodedIn_jump 0x03 hindex hindex rfl, _, exec_jal hindex s, link_spec ..⟩

end Sys2Proof.Machine
end

-- Proofs of the assembler statements: what a sequence gives a register, and the constants of `li` and `la`.
section
namespace Sys2Proof.Machine

/-! ### What a sequence gives a register -/

/-- The instructions, executed one after the other, give `rd` the value (0 for register 0), advance `pc` by their number
and change nothing else. -/
def GivesReg (is : List Instr) (s : State) (rd : Reg) (v : Word) : Prop :=
  ∃ t, execAll is s = .next t ∧ t.readReg rd = (if rd = 0 then 0 else v) ∧ s.SameRegsBut t [rd] ∧
    t.pc = trunc32 (u s.pc + is.length) ∧ s.SameHiLo t ∧ s.SameMemory t ∧ t.lma = s.lma ∧ s.SameSystem t

section
variable {s : State} {rd : Reg} {v : Word}

theorem givesReg_nil (h : s.readReg rd = if rd = 0 then 0 else v) : GivesReg [] s rd v :=
  ⟨s, rfl, h, fun _ _ => rfl, by simp, ⟨rfl, rfl⟩, ⟨fun _ => rfl, fun _ => rfl⟩, rfl, ⟨rfl, rfl, rfl, rfl, rfl⟩⟩

/-- `pc` wraps at every instruction, which comes to wrapping once at the end. -/
theorem trunc32_u_trunc32_add (a b : Int) : trunc32 (u (trunc32 a) + b) = trunc32 (a + b) := by
  rw [trunc32, BitVec.ofInt_add, BitVec.ofInt_natCast, u, BitVec.ofNat_toNat, BitVec.setWidth_eq, ← BitVec.ofInt_add]

/-- A first instruction that only writes `rd`, its value perhaps an intermediate one. -/
theorem givesReg_cons {i : Instr} {is : List Instr} {first : Word} (hi : exec i s = s.finish rd first)
    (his : ∀ t, s.WritesReg t rd first → GivesReg is t rd v) : GivesReg (i :: is) s rd v := by
  obtain ⟨m, hm, hw⟩ := executes_of_finish hi
  obtain ⟨t, ht, hresult, hregs, hpc, hhilo, hmem, hlma, hsys⟩ := his m hw
  refine ⟨t, by rw [execAll, hm]; exact ht, hresult, fun q hq => (hregs q hq).trans (hw.regs q hq), ?_,
    ⟨hhilo.hi.trans hw.hilo.hi, hhilo.lo.trans hw.hilo.lo⟩,
    ⟨fun a => (hmem.dmem a).trans (hw.memory.dmem a), fun a => (hmem.periph a).trans (hw.memory.periph a)⟩,
    hlma.trans hw.lma, hsys.status.trans hw.system.status, hsys.controller.trans hw.system.controller,
    hsys.imem.trans hw.system.imem, hsys.breakpoints.trans hw.system.breakpoints, hsys.cfg.trans hw.system.cfg⟩
  rw [hpc, hw.pc, trunc32_u_trunc32_add, List.length_cons, Nat.cast_succ, add_assoc, add_comm (1 : Int)]

theorem givesReg_singleton {i : Instr} (hi : exec i s = s.finish rd v) : GivesReg [i] s rd v :=
  givesReg_cons hi fun _ hw => givesReg_nil hw.result

end

/-! ### `add` with `$zero`, `addiu` on `$zero` -/

theorem exec_add_zero (rd rs : Reg) (s : State) : exec (.add rd rs 0) s = s.finish rd (s.readReg rs) := by
  rw [exec, execAdd, sum32_eq, readReg_zero, BitVec.ofNat_eq_ofNat, BitVec.add_zero]

theorem sextImm_eq {n : Int} (h : fitsSigned16 n = true) : sextImm n = trunc32 n := by
  rw [sextImm, BitVec.signExtend, signedField_toInt h]

theorem exec_addiu_zero {n : Int} (h : fitsSigned16 n = true) (rd : Reg) (s : State) :
    exec (.addiu rd 0 n) s = s.finish rd (trunc32 n) := by
  rw [exec, execAddiu, sum32_eq, readReg_zero, sextImm_eq h, BitVec.ofNat_eq_ofNat, BitVec.zero_add]

/-! ### `lui` and `ori` with the halves of a word -/

theorem fitsUnsigned16_upperHalf (w : Word) : fitsUnsigned16 (u w / 65536) = true := by
  have hw : u w < 2 ^ 32 := w.isLt
  rw [fitsUnsigned16_iff]
  omega

theorem fitsUnsigned16_lowerHalf (w : Word) : fitsUnsigned16 (u w % 65536) = true := by
  rw [fitsUnsigned16_iff]
  omega

/-- The halves share no bit, so their disjunction is their sum. -/
theorem upperHalf_or_lowerHalf (w : Word) : BitVec.ofNat 32 (u w / 65536 * 65536) ||| zextImm (u w % 65536) = w := by
  have hw : u w < 2 ^ 32 := w.isLt
  have hlow : u w % 65536 < 2 ^ 16 := Nat.mod_lt _ (by decide)
  apply BitVec.eq_of_toNat_eq
  rw [BitVec.toNat_or, BitVec.toNat_ofNat, Nat.mod_eq_of_lt (by omega), zextImm, BitVec.toNat_setWidth,
    unsignedField_toNat (fitsUnsigned16_lowerHalf w), Nat.mod_eq_of_lt (by omega)]
  calc u w / 65536 * 65536 ||| u w % 65536
    _ = 2 ^ 16 * (u w / 65536) + u w % 65536 := by rw [Nat.two_pow_add_eq_or_of_lt hlow, Nat.mul_comm]
    _ = u w := Nat.div_add_mod ..

theorem givesReg_lui_ori (rd : Reg) (w : Word) (s : State) :
    GivesReg [.lui rd (u w / 65536), .ori rd rd (u w % 65536)] s rd w := by
  refine givesReg_cons (exec_lui ..) fun t ht => givesReg_cons (first := t.readReg rd ||| zextImm (u w % 65536)) rfl
    fun t' ht' => givesReg_nil ?_
  rw [ht'.result, ht.result]
  by_cases hrd : rd = 0
  · rw [if_pos hrd, if_pos hrd]
  · rw [if_neg hrd, if_neg hrd, if_neg hrd, upperHalf_or_lowerHalf]

/-! ### The instructions of a constant (R190) -/

/-- The choice of R190, with the halves as quotient and remainder. -/
def constantInstrs (rd : Reg) (n : Int) : List Instr :=
  if -32768 ≤ n ∧ n ≤ 32767 then [.addiu rd 0 n]
  else [.lui rd (u (trunc32 n) / 65536), .ori rd rd (u (trunc32 n) % 65536)]

theorem extractUpper_toNat (w : Word) : (w.extractLsb' 16 16).toNat = u w / 65536 := by
  have hw : u w < 2 ^ 32 := w.isLt
  rw [BitVec.extractLsb'_toNat, Nat.shiftRight_eq_div_pow, Nat.mod_eq_of_lt (by omega)]

theorem extractLower_toNat (w : Word) : (w.extractLsb' 0 16).toNat = u w % 65536 := by
  rw [BitVec.extractLsb'_toNat, Nat.shiftRight_zero]

theorem lowerConstant_eq (rd : Reg) {n : Int} (hlo : -2 ^ 31 ≤ n) (hhi : n ≤ 2 ^ 32 - 1) :
    lowerConstant rd n = some (constantInstrs rd n) := by
  have hfits : fits32 n = true := by simp only [fits32, hlo, hhi, decide_true, Bool.and_true]
  by_cases h : -32768 ≤ n ∧ n ≤ 32767
  · rw [lowerConstant, if_pos (fitsSigned16_iff.mpr h), constantInstrs, if_pos h]
  · rw [lowerConstant, if_neg (mt fitsSigned16_iff.mp h), if_pos hfits, constantInstrs, if_neg h, extractUpper_toNat,
      extractLower_toNat]

theorem constantInstrs_wf (rd : Reg) (n : Int) : ∀ i ∈ constantInstrs rd n, i.wf = true := by
  unfold constantInstrs
  split
  · next h => exact List.forall_mem_singleton.mpr (fitsSigned16_iff.mpr h)
  · exact List.forall_mem_cons.mpr ⟨fitsUnsigned16_upperHalf _, List.forall_mem_singleton.mpr (fitsUnsigned16_lowerHalf _)⟩

theorem givesReg_constantInstrs (rd : Reg) (n : Int) (s : State) : GivesReg (constantInstrs rd n) s rd (trunc32 n) := by
  unfold constantInstrs
  split
  · next h => exact givesReg_singleton (exec_addiu_zero (fitsSigned16_iff.mpr h) rd s)
  · exact givesReg_lui_ori rd (trunc32 n) s

/-! ### The statement -/

/-- Settles O59: `move` adds register 0; `li` and `la` lower to the instructions of their constant, whose value is the
immediate or the label. -/
theorem moveAndConstantLowering : Obligations.MoveAndConstantLowering := by
  intro s rd rs imm index does constant
  refine ⟨⟨rfl, List.forall_mem_singleton.mpr rfl, givesReg_singleton (exec_add_zero rd rs s)⟩, ?li, ?la⟩
  case li =>
    rintro ⟨hlo, hhi⟩
    exact ⟨lowerConstant_eq rd hlo hhi, constantInstrs_wf rd imm, givesReg_constantInstrs rd imm s⟩
  case la =>
    intro a ha
    have hvalue : GivesReg (constantInstrs rd a) s rd (BitVec.ofNat 32 a) :=
      BitVec.ofInt_natCast 32 a ▸ givesReg_constantInstrs rd a s
    exact ⟨lowerConstant_eq rd (by omega) (by omega), constantInstrs_wf rd a, hvalue⟩

end Sys2Proof.Machine
end

-- Proofs of the fault statement: what an instruction and a step can answer, and what the calls of the host return.
section
namespace Sys2Proof.Machine

/-! ### What an instruction answers: a state of the same `STATUS`, controller, program and parameters, or fault entry -/

/-- The answer is a next state: one with the system's fields as before, or the state of fault entry (R207). -/
def State.CompletesOrFaults (s : State) (answer : Result) : Prop :=
  ∃ t, answer = .next t ∧ (s.SameSystem t ∨ ∃ r, t = s.takeFault r)

section
variable (s : State)

theorem finish_completesOrFaults (r : Reg) (v : Word) : s.CompletesOrFaults (s.finish r v) := by
  obtain ⟨t, ht, hw⟩ := finish_spec s r v
  exact ⟨t, ht, .inl hw.system⟩

theorem finishHiLo_completesOrFaults (h l : Word) : s.CompletesOrFaults (s.finishHiLo h l) := by
  obtain ⟨t, ht, hw⟩ := finishHiLo_spec s h l
  exact ⟨t, ht, .inl hw.system⟩

theorem branch_completesOrFaults (taken : Bool) (offset : Int) : s.CompletesOrFaults (s.branch taken offset) := by
  obtain ⟨t, ht, hj⟩ := branch_spec s taken offset
  exact ⟨t, ht, .inl hj.system⟩

theorem setPc_completesOrFaults (target : Word) : s.CompletesOrFaults (.next (s.setPc target)) :=
  ⟨_, rfl, .inl (setPc_spec s target).system⟩

theorem link_completesOrFaults (target : Word) : s.CompletesOrFaults (.next ((s.writeReg 31 s.nextPc).setPc target)) :=
  ⟨_, rfl, .inl (link_spec s target).system⟩

theorem takeFault_completesOrFaults (r : Raised) : s.CompletesOrFaults (.next (s.takeFault r)) :=
  ⟨_, rfl, .inr ⟨r, rfl⟩⟩

theorem finishDivision_completesOrFaults (divisor : Word) (qr : Word × Word) :
    s.CompletesOrFaults (s.finishDivision divisor qr) := by
  by_cases hd : divisor = 0
  · rw [hd, finishDivision_zero]
    exact takeFault_completesOrFaults s _
  · rw [finishDivision_nonzero s qr hd]
    exact finishHiLo_completesOrFaults s _ _

theorem load_completesOrFaults (n : Size) (extend : Nat → Word) (rt : Reg) (ea : Word) :
    s.CompletesOrFaults (s.load n extend rt ea) := by
  cases hc : checkAccess s.cfg ea n with
  | none =>
    obtain ⟨t, ht, hl⟩ := load_ok s extend rt hc
    exact ⟨t, ht, .inl hl.system⟩
  | some r =>
    rw [load_fault s extend rt hc]
    exact takeFault_completesOrFaults s r

/-- Unlike `store_ok`, of any byte memories. -/
theorem store_completesOrFaults (n : Size) (v ea : Word) : s.CompletesOrFaults (s.store n v ea) := by
  cases hc : checkAccess s.cfg ea n with
  | none =>
    rw [State.store, memWrite_ok v hc]
    refine ⟨_, rfl, .inl ⟨?_, ?_, ?_, ?_, ?_⟩⟩
    all_goals simp
  | some r =>
    rw [store_fault s v hc]
    exact takeFault_completesOrFaults s r

/-- Every instruction, by the shape of its effect. -/
theorem exec_completesOrFaults (i : Instr) : s.CompletesOrFaults (exec i s) := by
  match i with
  | .add .. | .addu .. | .sub .. | .subu .. | .addi .. | .addiu .. | .mfhi .. | .mflo .. | .and .. | .or .. | .xor ..
  | .nor .. | .andi .. | .ori .. | .xori .. | .sll .. | .srl .. | .sra .. | .slt .. | .sltu .. | .slti .. | .sltiu ..
  | .lui .. => exact finish_completesOrFaults s _ _
  | .mult .. | .multu .. => exact finishHiLo_completesOrFaults s _ _
  | .div .. | .divu .. => exact finishDivision_completesOrFaults s _ _
  | .lw .. | .lh .. | .lb .. => exact load_completesOrFaults s _ _ _ _
  | .sw .. | .sh .. | .sb .. => exact store_completesOrFaults s _ _ _
  | .beq .. | .bne .. => exact branch_completesOrFaults s _ _
  | .j .. | .jr .. => exact setPc_completesOrFaults s _
  | .jal .. => exact link_completesOrFaults s _

end

/-! ### What a step answers (R201) -/

theorem noStep_eq_none {s : State} (h : s.noStep = none) : s.controller ≠ .unloaded ∧ s.status = .ready := by
  unfold State.noStep at h
  split at h
  · cases h
  · next hloaded =>
    split at h
    · next hready => exact ⟨hloaded, hready⟩
    · cases h

theorem settle_cases (s : State) : s.settle = s.terminate ∨ s.settle = s := by
  unfold State.settle
  split
  · exact .inl rfl
  · exact .inr rfl

theorem settle_takeFault (s : State) (r : Raised) : (s.takeFault r).settle = s.takeFault r :=
  if_neg fun h => nomatch h.1

/-- A step is made from a ready state only; it takes a fault there, ends the program (perhaps after an instruction that
kept the system's fields), or keeps the system's fields. -/
theorem step_cases {s t : State} (h : step s = .next t) :
    s.status = .ready ∧
      ((∃ r, t = s.takeFault r) ∨ (∃ m, s.SameSystem m ∧ t = m.terminate) ∨ s.SameSystem t) := by
  unfold step stepWith at h
  split at h
  · cases h
  · next hn =>
    refine ⟨(noStep_eq_none hn).2, ?_⟩
    split at h
    · cases h
      exact .inr (.inl ⟨s, ⟨rfl, rfl, rfl, rfl, rfl⟩, rfl⟩)
    · cases h
      exact .inl ⟨_, rfl⟩
    · next i _ =>
      obtain ⟨m, hm, hsame | ⟨r, rfl⟩⟩ := exec_completesOrFaults s i
      all_goals
        rw [hm] at h
        cases h
      · obtain hsettle | hsettle := settle_cases m
        · exact .inr (.inl ⟨m, hsame, hsettle⟩)
        · exact .inr (.inr (hsettle.symm ▸ hsame))
      · exact .inl ⟨r, settle_takeFault s r⟩

/-- A step that latches a fault does nothing else but halt the controller. -/
theorem faulted_of_step {s t : State} {k : FaultKind} (h : step s = .next t) (hk : t.status = .fault k) :
    s.Faulted t k := by
  obtain ⟨hready, ⟨r, rfl⟩ | ⟨m, _, rfl⟩ | hsame⟩ := step_cases h
  · cases hk
    rfl
  · cases hk
  · rw [hsame.status, hready] at hk
    cases hk

/-- A step that stops the machine halts the controller. -/
theorem halted_of_step {s t : State} (h : step s = .next t) (hstop : t.status ≠ .ready) : t.controller = .halted := by
  obtain ⟨hready, ⟨r, rfl⟩ | ⟨m, _, rfl⟩ | hsame⟩ := step_cases h
  · exact takeFault_controller ..
  · exact terminate_controller ..
  · exact absurd (hsame.status.trans hready) hstop

theorem snapshot_of_faulted {s t : State} {k : FaultKind} (h : s.Faulted t k) : t.snapshot = s.snapshot := by
  rw [h]
  rfl

/-! ### What the host's calls answer (R227, R229) -/

theorem stepCall_of_step {s t : State} (haccepts : s.controller.accepts = true) (h : step s = .next t) :
    s.stepCall = (t.afterStep, some t.status.tag) := by
  rw [State.stepCall, if_pos haccepts, h]

theorem afterStep_of_fault {t : State} {k : FaultKind} (h : t.status = .fault k) : t.afterStep = t := by
  rw [State.afterStep, h]

/-- A loop that ends in a stopped machine gives the tag of its `STATUS` and a halted controller. -/
theorem runLoop_stopped {fuel : Nat} {skip : Bool} {s : State} {r : State × Tag} (h : runLoop fuel skip s = some r)
    (hstop : r.1.status ≠ .ready) : r.2 = r.1.status.tag ∧ r.1.controller = .halted := by
  induction fuel generalizing skip s with
  | zero => cases h
  | succ fuel ih =>
    unfold runLoop at h
    split at h
    · cases h
      exact ⟨rfl, rfl⟩
    · next hready =>
      split at h
      · cases h
        exact absurd hstop hready
      · split at h
        · next t hstep =>
          split at h
          · exact ih h
          · next hstopped =>
            cases h
            exact ⟨rfl, halted_of_step hstep hstopped⟩
        · cases h
        · cases h

theorem runCall_stopped {q : State} {fuel : Nat} {r : State × Option Tag} (haccepts : q.controller.accepts = true)
    (h : q.runCall fuel = some r) (hstop : r.1.status ≠ .ready) :
    r.2 = some r.1.status.tag ∧ r.1.controller = .halted := by
  rw [State.runCall, if_pos haccepts, Option.map_eq_some_iff] at h
  obtain ⟨r', hr', rfl⟩ := h
  obtain ⟨htag, hhalted⟩ := runLoop_stopped hr' hstop
  exact ⟨congrArg some htag, hhalted⟩

/-! ### The statement -/

/-- Settles O14: a step that latches a fault took it from the state it began in, and both calls return the tag of the
stopped machine's `STATUS`. -/
theorem faultsArePrecise : Obligations.FaultsArePrecise := by
  intro s t k _ hstep hk
  have hfaulted := faulted_of_step hstep hk
  refine ⟨hfaulted, snapshot_of_faulted hfaulted, fun haccepts => ?_, fun q fuel r haccepts _ hrun hr => ?_⟩
  · rw [stepCall_of_step haccepts hstep, afterStep_of_fault hk, hk, Status.tag]
  · obtain ⟨htag, hhalted⟩ := runCall_stopped haccepts hrun (by rw [hr]; nofun)
    exact ⟨by rw [htag, hr, Status.tag], hhalted⟩

end Sys2Proof.Machine
end

-- Proofs of the reset statement: what the cleared state reads, and the executor's answer before a load.
section
namespace Sys2Proof.Machine

/-! ### The cleared state (R43) -/

@[simp] theorem cleared_readReg (c : Config) (breakpoints : List Nat) (r : Reg) :
    (State.cleared c breakpoints).readReg r = 0 := by
  simp [State.readReg, State.cleared]

theorem cleared_dmem_read (c : Config) (breakpoints : List Nat) (a : Nat) :
    (State.cleared c breakpoints).dmem.read a = 0 := rfl

theorem cleared_periph_read (c : Config) (breakpoints : List Nat) (a : Nat) :
    (State.cleared c breakpoints).periph.read a = 0 := rfl

/-! ### No step before a load (R44) -/

theorem step_of_unloaded {s : State} (h : s.controller = .unloaded) : step s = .fault .notLoaded := by
  rw [step, stepWith, State.noStep, if_pos h]

theorem step_cleared_ne_next (c : Config) (breakpoints : List Nat) (t : State) :
    step (State.cleared c breakpoints) ≠ .next t := by
  rw [step_of_unloaded rfl]
  nofun

/-! ### The statement -/

/-- Settles O1: `reset()` yields the cleared state with no breakpoints, of the same parameters; the state after reset is
that of the default ones. -/
theorem resetClearsEverything : Obligations.ResetClearsEverything := by
  refine ⟨fun s => ?_, cleared_readReg _ _, rfl⟩
  exact ⟨cleared_readReg _ _, rfl, rfl, rfl, fun a => ⟨cleared_dmem_read _ _ a, cleared_periph_read _ _ a⟩,
    rfl, rfl, rfl, rfl, rfl, step_cleared_ne_next _ _⟩

end Sys2Proof.Machine
end

-- Proofs of the statements on the code as a whole: decoding inverts encoding, and the codes outside the tables.
section
namespace Sys2Proof

/-! ### The operands of a decoded word are in range (R78) -/

@[simp] theorem fitsSigned16_toInt (x : BitVec 16) : fitsSigned16 x.toInt = true :=
  fitsSigned16_iff.mpr ⟨x.le_toInt, Int.le_sub_one_of_lt x.toInt_lt⟩

@[simp] theorem fitsUnsigned16_toNat (x : BitVec 16) : fitsUnsigned16 x.toNat = true :=
  fitsUnsigned16_iff.mpr (Nat.le_pred_of_lt x.isLt)

@[simp] theorem fitsShamt_toNat (x : BitVec 5) : fitsShamt x.toNat = true := fitsShamt_iff.mpr (Nat.le_pred_of_lt x.isLt)

@[simp] theorem fitsIndex26_toNat (x : BitVec 26) : fitsIndex26 x.toNat = true := fitsIndex26_iff.mpr x.isLt

theorem wf_of_decodeSpecial {w : Word} {i : Instr} (h : decodeSpecial w = .ok i) : i.wf = true := by
  unfold decodeSpecial at h
  split at h
  case h_21 => cases h -- a reserved function code
  all_goals
    obtain ⟨_, rfl⟩ := requireZero_eq_ok.mp h
    simp [Instr.wf]

theorem wf_of_decode {w : Word} {i : Instr} (h : decode w = .ok i) : i.wf = true := by
  unfold decode at h
  split at h
  case h_1 => exact wf_of_decodeSpecial h
  case h_13 => -- `lui`
    obtain ⟨_, rfl⟩ := requireZero_eq_ok.mp h
    exact fitsUnsigned16_toNat _
  case h_20 => cases h -- a reserved opcode
  all_goals
    cases h
    simp [Instr.wf]

/-! ### Codes outside the tables (R90, R91) -/

theorem decode_of_unlisted_opcode {w : Word} (h : (opOf w).toNat ∉ [0x00, 0x02, 0x03, 0x04, 0x05, 0x08, 0x09, 0x0A,
    0x0B, 0x0C, 0x0D, 0x0E, 0x0F, 0x20, 0x21, 0x23, 0x28, 0x29, 0x2B]) :
    decode w = .error (.reservedOpcode (opOf w)) := by
  unfold decode
  split
  case h_20 => rfl
  all_goals
    next hop =>
    simp [hop] at h

theorem decode_of_unlisted_funct {w : Word} (hop : opOf w = 0) (h : (functOf w).toNat ∉ [0x00, 0x02, 0x03, 0x08, 0x10,
    0x12, 0x18, 0x19, 0x1A, 0x1B, 0x20, 0x21, 0x22, 0x23, 0x24, 0x25, 0x26, 0x27, 0x2A, 0x2B]) :
    decode w = .error (.reservedFunct (functOf w)) := by
  have hspecial : decode w = decodeSpecial w := by simp [decode, hop]
  rw [hspecial]
  unfold decodeSpecial
  split
  case h_21 => rfl
  all_goals
    next hfunct =>
    simp [hfunct] at h

/-! ### The statements -/

/-- Settles O6: the decoder reads an encoded word's fields back, and an operand in range survives its field. -/
theorem decodeOfEncode : Obligations.DecodeOfEncode := fun _ => decode_encode

/-- Settles O7: a decoded operand is the value of its field, hence in range; the word is rebuilt from its fields. -/
theorem encodeOfDecode : Obligations.EncodeOfDecode := fun _ _ h => ⟨wf_of_decode h, encode_of_decode h⟩

/-- Settles O9: both rows have the mnemonic of what the word decodes to, and no two rows share a mnemonic. -/
theorem opcodeTableRowsAreDisjoint : Obligations.OpcodeTableRowsAreDisjoint := by
  intro w r q hr hq hrw hqw
  obtain ⟨i, hi, hir⟩ := decode_of_matches hr hrw
  obtain ⟨j, hj, hjq⟩ := decode_of_matches hq hqw
  have hij : i = j := Except.ok.inj (hi.symm.trans hj)
  exact List.inj_on_of_nodup_map opcodeTable_mnemonics_nodup hr hq (by rw [← hir, ← hjq, hij])

/-- Settles O10: such a word takes the last arm of the decoder. -/
theorem unlistedCodesAreReserved : Obligations.UnlistedCodesAreReserved :=
  fun _ => ⟨fun h => ⟨_, decode_of_unlisted_opcode h⟩, fun hop h => ⟨_, decode_of_unlisted_funct hop h⟩⟩

/-- Settles O11: the decoder evaluated on each word. -/
theorem sampleWordsDecode : Obligations.SampleWordsDecode := by
  unfold Obligations.SampleWordsDecode
  decide

end Sys2Proof
end

-- Proofs of the rules of every instruction: the shapes an answer can have, and what each shape changes.
section
namespace Sys2Proof.Machine

/-! ### The shapes of an instruction's answer -/

/-- The effective address and the width of a load or store. -/
def accessOf (s : State) : Instr → Option (Word × Size)
  | .lw _ offset rs | .sw _ offset rs => some (eaOf s rs offset, .word)
  | .lh _ offset rs | .sh _ offset rs => some (eaOf s rs offset, .half)
  | .lb _ offset rs | .sb _ offset rs => some (eaOf s rs offset, .byte)
  | _ => none

/-- The next states an instruction can answer, one constructor per shape of effect, with what the shape says of the
instruction. -/
inductive Answer (i : Instr) (s : State) : State → Prop where
  | register {rd : Reg} {v : Word} (hkind : kindOf i = .register) (hdest : destOf i = some rd) :
      Answer i s (s.writeReg rd v).advance
  | hilo {h l : Word} (hkind : kindOf i = .hilo) : Answer i s (s.setHiLo h l).advance
  | load {ea : Word} {n : Size} {rt : Reg} {v : Word} (hkind : kindOf i = .load) (hdest : destOf i = some rt)
      (haccess : accessOf s i = some (ea, n)) (hcheck : checkAccess s.cfg ea n = none) :
      Answer i s ((s.noteAccess ea n).writeReg rt v).advance
  | store {ea : Word} {n : Size} {bs : List Byte} (hkind : kindOf i = .store) (hlength : bs.length = n.bytes)
      (haccess : accessOf s i = some (ea, n)) (hcheck : checkAccess s.cfg ea n = none) :
      Answer i s ((s.setDataBytes (u ea) bs).noteAccess ea n).advance
  | jump {target : Word} (hkind : kindOf i = .transfer) : Answer i s (s.setPc target)
  | link {v target : Word} (hkind : kindOf i = .transfer) (hdest : destOf i = some 31) :
      Answer i s ((s.writeReg 31 v).setPc target)
  | fault {r : Raised} (hraised : r.kind ≠ .invalidInstruction) : Answer i s (s.takeFault r)

section
variable {i : Instr} {s : State}

theorem branch_answer (hkind : kindOf i = .transfer) (taken : Bool) (offset : Int) :
    ∃ t, s.branch taken offset = .next t ∧ Answer i s t := by
  cases taken
  · exact ⟨_, rfl, .jump hkind⟩
  · exact ⟨_, rfl, .jump hkind⟩

theorem finishDivision_answer (hkind : kindOf i = .hilo) (divisor : Word) (qr : Word × Word) :
    ∃ t, s.finishDivision divisor qr = .next t ∧ Answer i s t := by
  unfold State.finishDivision
  split
  · exact ⟨_, rfl, .fault nofun⟩
  · exact ⟨_, rfl, .hilo hkind⟩

theorem kind_of_checkAccess {c : Config} {ea : Word} {n : Size} {r : Raised} (h : checkAccess c ea n = some r) :
    r.kind ≠ .invalidInstruction := by
  obtain ⟨rfl, _⟩ | ⟨rfl, _⟩ := checkAccess_eq_some h
  · nofun
  · nofun

theorem load_answer {n : Size} {rt : Reg} {ea : Word} (hkind : kindOf i = .load) (hdest : destOf i = some rt)
    (haccess : accessOf s i = some (ea, n)) (extend : Nat → Word) :
    ∃ t, s.load n extend rt ea = .next t ∧ Answer i s t := by
  cases hc : checkAccess s.cfg ea n with
  | none =>
    rw [State.load, memRead_ok hc]
    exact ⟨_, rfl, .load hkind hdest haccess hc⟩
  | some r =>
    rw [load_fault s extend rt hc]
    exact ⟨_, rfl, .fault (kind_of_checkAccess hc)⟩

theorem store_answer {n : Size} {ea : Word} (hkind : kindOf i = .store) (haccess : accessOf s i = some (ea, n))
    (v : Word) : ∃ t, s.store n v ea = .next t ∧ Answer i s t := by
  cases hc : checkAccess s.cfg ea n with
  | none =>
    rw [State.store, memWrite_ok v hc]
    exact ⟨_, rfl, .store hkind (by simp) haccess hc⟩
  | some r =>
    rw [store_fault s v hc]
    exact ⟨_, rfl, .fault (kind_of_checkAccess hc)⟩

end

/-- Every instruction answers a next state of its shape. -/
theorem exec_answer (i : Instr) (s : State) : ∃ t, exec i s = .next t ∧ Answer i s t := by
  match i with
  | .add .. | .addu .. | .sub .. | .subu .. | .addi .. | .addiu .. | .mfhi .. | .mflo .. | .and .. | .or .. | .xor ..
  | .nor .. | .andi .. | .ori .. | .xori .. | .sll .. | .srl .. | .sra .. | .slt .. | .sltu .. | .slti .. | .sltiu ..
  | .lui .. => exact ⟨_, rfl, .register rfl rfl⟩
  | .mult .. | .multu .. => exact ⟨_, rfl, .hilo rfl⟩
  | .div .. | .divu .. => exact finishDivision_answer rfl _ _
  | .lw .. | .lh .. | .lb .. => exact load_answer rfl rfl rfl _
  | .sw .. | .sh .. | .sb .. => exact store_answer rfl rfl _
  | .beq .. | .bne .. => exact branch_answer rfl _ _
  | .j .. | .jr .. => exact ⟨_, rfl, .jump rfl⟩
  | .jal .. => exact ⟨_, rfl, .link rfl rfl⟩

theorem answer_of_exec {i : Instr} {s t : State} (h : exec i s = .next t) : Answer i s t := by
  obtain ⟨q, hq, ha⟩ := exec_answer i s
  rw [hq] at h
  cases h
  exact ha

/-! ### What each shape changes -/

section
variable {i : Instr} {s t : State}

/-- An answer completes, with the system's fields as before, or it is fault entry. -/
theorem Answer.sameSystem_or_fault (h : Answer i s t) :
    s.SameSystem t ∨ ∃ r : Raised, r.kind ≠ .invalidInstruction ∧ t = s.takeFault r := by
  cases h with
  | fault hraised => exact .inr ⟨_, hraised, rfl⟩
  | register | hilo | load | store | jump | link =>
    refine .inl ⟨?_, ?_, ?_, ?_, ?_⟩
    all_goals simp

/-- An answer that leaves `STATUS` not `Ready` is fault entry. -/
theorem Answer.eq_takeFault (h : Answer i s t) (hs : s.status = .ready) (ht : t.status ≠ .ready) :
    ∃ r, t = s.takeFault r := by
  obtain hsame | ⟨r, _, rfl⟩ := h.sameSystem_or_fault
  · exact absurd (hsame.status.trans hs) ht
  · exact ⟨r, rfl⟩

theorem Answer.pc_of_not_transfer (h : Answer i s t) (hkind : kindOf i ≠ .transfer) (ht : t.status = .ready) :
    s.AtNext t := by
  cases h with
  | register | hilo | load | store => simp [State.AtNext, State.nextPc]
  | jump h | link h => exact absurd h hkind
  | fault => cases ht

theorem Answer.readReg_of_not_dest (h : Answer i s t) {r : Reg} (hr : destOf i ≠ some r) :
    t.readReg r = s.readReg r := by
  have hne {d : Reg} (hd : destOf i = some d) : r ≠ d := fun e => hr (e ▸ hd)
  cases h with
  | register _ hdest | load _ hdest | link _ hdest => simp [readReg_writeReg_other, hne hdest]
  | hilo | store | jump | fault => simp

theorem Answer.sameHiLo (h : Answer i s t) (hkind : kindOf i ≠ .hilo) : s.SameHiLo t := by
  cases h with
  | hilo h => exact absurd h hkind
  | register | load | store | jump | link | fault =>
    constructor
    all_goals simp

theorem Answer.sameMemory (h : Answer i s t) (hkind : kindOf i ≠ .store) : s.SameMemory t := by
  cases h with
  | store h => exact absurd h hkind
  | register | hilo | load | jump | link | fault =>
    constructor
    all_goals simp

theorem Answer.lma_of_not_access (h : Answer i s t) (hkind : kindOf i ≠ .load ∧ kindOf i ≠ .store) :
    t.lma = s.lma := by
  cases h with
  | load h => exact absurd h hkind.1
  | store h => exact absurd h hkind.2
  | register | hilo | jump | link | fault => simp

theorem kindOf_of_accessOf {a : Word × Size} (ha : accessOf s i = some a) : kindOf i = .load ∨ kindOf i = .store := by
  unfold accessOf at ha
  split at ha
  case h_7 => cases ha
  all_goals simp [kindOf]

/-- A load or store that completes notes its access. -/
theorem Answer.lma_of_access (h : Answer i s t) {a : Word × Size} (ha : accessOf s i = some a)
    (ht : t.status = .ready) : t.lma = some a := by
  have hkind := kindOf_of_accessOf ha
  cases h with
  | load _ _ haccess | store _ _ haccess => simp [← ha, haccess]
  | fault => cases ht
  | register h | hilo h | jump h | link h => simp [h] at hkind

end

/-! ### The statements -/

/-- Settles O45: each of the shapes is a next state. -/
theorem everyInstructionHasAStep : Obligations.EveryInstructionHasAStep := by
  intro i s
  obtain ⟨t, ht, _⟩ := exec_answer i s
  exact ⟨t, ht⟩

/-- Settles O46: only the transfers' shapes do not advance; fault entry leaves `pc`. -/
theorem onlyTransfersMoveThePc : Obligations.OnlyTransfersMoveThePc := by
  intro i s t hs hexec
  have h := answer_of_exec hexec
  refine ⟨h.pc_of_not_transfer, fun ht => ?_⟩
  obtain ⟨r, rfl⟩ := h.eq_takeFault hs ht
  rfl

/-- Settles O47: a shape writes no register but the destination, and a write to register 0 is dropped. -/
theorem onlyTheDestinationIsWritten : Obligations.OnlyTheDestinationIsWritten := by
  intro i s t hexec
  have h := answer_of_exec hexec
  refine ⟨fun _ => h.readReg_of_not_dest, fun hzero r _ => ?_⟩
  by_cases hr : r = 0
  · rw [hr, readReg_zero, readReg_zero]
  · exact h.readReg_of_not_dest (by simpa [hzero] using Ne.symm hr)

/-- Settles O48: no other shape writes HI or LO, and fault entry writes neither. -/
theorem onlyMultiplyAndDivideWriteHiLo : Obligations.OnlyMultiplyAndDivideWriteHiLo := by
  intro i s t hs hexec hor
  have h := answer_of_exec hexec
  obtain hkind | ht := hor
  · exact h.sameHiLo hkind
  · obtain ⟨r, rfl⟩ := h.eq_takeFault hs ht
    exact ⟨rfl, rfl⟩

/-- Settles O49: only the stores' shape writes a byte. -/
theorem onlyStoresChangeMemory : Obligations.OnlyStoresChangeMemory :=
  fun _ _ _ hexec => (answer_of_exec hexec).sameMemory

/-- Settles O50: the shapes of loads and stores note the access, no other shape and no fault does. -/
theorem lmaFollowsCompletedAccesses : Obligations.LmaFollowsCompletedAccesses := by
  intro i s t hs hexec
  have h := answer_of_exec hexec
  refine ⟨fun hor => ?unchanged, fun ht rt rs offset => ⟨?word, ?half, ?byte⟩⟩
  case unchanged =>
    obtain hkind | ht := hor
    · exact h.lma_of_not_access hkind
    · obtain ⟨r, rfl⟩ := h.eq_takeFault hs ht
      rfl
  all_goals
    rintro (rfl | rfl)
    all_goals exact h.lma_of_access rfl ht

/-- Settles O51: a step ends in a state with the system's fields of the one it began in, but for `STATUS` and the
controller. -/
theorem noStepChangesTheProgram : Obligations.NoStepChangesTheProgram := by
  intro s t hstep
  obtain ⟨_, ⟨r, rfl⟩ | ⟨m, hsame, rfl⟩ | hsame⟩ := step_cases hstep
  · exact ⟨rfl, rfl, rfl⟩
  · exact ⟨hsame.imem, hsame.cfg, hsame.breakpoints⟩
  · exact ⟨hsame.imem, hsame.cfg, hsame.breakpoints⟩

end Sys2Proof.Machine
end

-- Proofs of the statements on a step: what the fetch rule finds, and what the executor answers to it.
section
namespace Sys2Proof.Machine

/-! ### The fetch rule (R201) -/

theorem fetch_of_end {s : State} (h : u s.pc = s.imem.length) : s.fetch = .ended := if_pos h

theorem fetch_of_word {s : State} {w : Word} (h : s.imem[u s.pc]? = some w) : s.fetch = decodeAt s.pc w := by
  obtain ⟨hlt, _⟩ := List.getElem?_eq_some_iff.mp h
  rw [State.fetch, if_neg hlt.ne, h]

theorem fetch_of_beyond {s : State} (h : u s.pc > s.imem.length) :
    s.fetch = .invalid (.invalidInstruction s.pc none) := by
  rw [State.fetch, if_neg h.ne', List.getElem?_eq_none h.le]

theorem decodeAt_of_ok {pc w : Word} {i : Instr} (h : decode w = .ok i) : decodeAt pc w = .instr i := by
  rw [decodeAt, h]

theorem decodeAt_of_error {pc w : Word} {e : DecodeError} (h : decode w = .error e) :
    decodeAt pc w = .invalid (.invalidInstruction pc (some w)) := by
  rw [decodeAt, h]

/-- A fetch finds the end, or `InvalidInstruction` where `pc` is not at the end, or an instruction of the program. -/
theorem fetch_cases (s : State) :
    (s.fetch = .ended ∧ u s.pc = s.imem.length) ∨
    (∃ r, s.fetch = .invalid r ∧ r.kind = .invalidInstruction ∧ u s.pc ≠ s.imem.length) ∨
    ∃ i, s.fetch = .instr i ∧ u s.pc < s.imem.length := by
  obtain hlt | heq | hgt := lt_trichotomy (u s.pc) s.imem.length
  · have hword := List.getElem?_eq_getElem hlt
    cases hdec : decode s.imem[u s.pc] with
    | ok i => exact .inr (.inr ⟨i, (fetch_of_word hword).trans (decodeAt_of_ok hdec), hlt⟩)
    | error e => exact .inr (.inl ⟨_, (fetch_of_word hword).trans (decodeAt_of_error hdec), rfl, hlt.ne⟩)
  · exact .inl ⟨fetch_of_end heq, heq⟩
  · exact .inr (.inl ⟨_, fetch_of_beyond hgt, rfl, hgt.ne'⟩)

/-! ### The executor's answer (R44, R201, R208) -/

section
variable {s : State}

theorem step_of_not_ready (hloaded : s.controller ≠ .unloaded) (h : s.status ≠ .ready) : step s = .fault .halted := by
  rw [step, stepWith, State.noStep, if_neg hloaded, if_neg h]

variable (hready : s.status = .ready) (hloaded : s.controller ≠ .unloaded)
include hready hloaded

theorem noStep_of_ready : s.noStep = none := by
  rw [State.noStep, if_neg hloaded, if_pos hready]

theorem step_of_ended (h : s.fetch = .ended) : step s = .next s.terminate := by
  simp only [step, stepWith, noStep_of_ready hready hloaded, h]

theorem step_of_invalid {r : Raised} (h : s.fetch = .invalid r) : step s = .next (s.takeFault r) := by
  simp only [step, stepWith, noStep_of_ready hready hloaded, h, State.raise]

theorem step_of_instr {i : Instr} {t : State} (h : s.fetch = .instr i) (ht : exec i s = .next t) :
    step s = .next t.settle := by
  simp only [step, stepWith, noStep_of_ready hready hloaded, h, ht, settleResult]

/-- The answers of a ready, loaded machine: the end of the program, `InvalidInstruction`, or the answer of an instruction
of the program, settled. -/
theorem step_answer : ∃ t, step s = .next t ∧
    ((t = s.terminate ∧ u s.pc = s.imem.length) ∨
      (∃ r, t = s.takeFault r ∧ r.kind = .invalidInstruction ∧ u s.pc ≠ s.imem.length) ∨
      ∃ i m, Answer i s m ∧ t = m.settle ∧ u s.pc < s.imem.length) := by
  obtain ⟨h, hpc⟩ | ⟨r, h, hkind, hpc⟩ | ⟨i, h, hpc⟩ := fetch_cases s
  · exact ⟨_, step_of_ended hready hloaded h, .inl ⟨rfl, hpc⟩⟩
  · exact ⟨_, step_of_invalid hready hloaded h, .inr (.inl ⟨r, rfl, hkind, hpc⟩)⟩
  · obtain ⟨m, hm, ha⟩ := exec_answer i s
    exact ⟨_, step_of_instr hready hloaded h hm, .inr (.inr ⟨i, m, ha, rfl, hpc⟩)⟩

end

/-- Only a ready, loaded machine steps. -/
theorem ready_of_step {s t : State} (h : step s = .next t) : s.status = .ready ∧ s.controller ≠ .unloaded := by
  refine ⟨(step_cases h).1, fun hunloaded => ?_⟩
  rw [step_of_unloaded hunloaded] at h
  cases h

theorem settle_of_not_end {s : State} (h : u s.pc ≠ s.imem.length) : s.settle = s := if_neg fun hand => h hand.2

/-! ### A word placed at `pc` -/

theorem placeWord_getElem? (l : List Word) (n : Nat) (w : Word) : (placeWord l n w)[n]? = some w := by
  fun_induction placeWord l n w with
  | case1 | case2 | case3 => rfl
  | case4 _ _ ih | case5 _ _ _ _ ih => simpa using ih

theorem withFetchWord_loaded (s : State) (nbits w : Nat) : (s.withFetchWord nbits w).controller ≠ .unloaded := by
  simp only [State.withFetchWord, State.placeAtPc, State.makeReady]
  cases s.controller <;> nofun

theorem fetch_withFetchWord {s : State} {w : Nat} {i : Instr} (h : decodeTableWord 32 w = some i) :
    (s.withFetchWord 32 w).fetch = .instr i := by
  have hdec : decode (tableWord 32 w) = .ok i := by
    unfold decodeTableWord at h
    split at h
    · next hok => rw [hok, Option.some.inj h]
    · cases h
  exact (fetch_of_word (placeWord_getElem? ..)).trans (decodeAt_of_ok hdec)

/-! ### The statements -/

/-- Settles O12: the case of the fetch rule that the hypotheses name, with the executor's answer to it. -/
theorem stepRunsTheDecodedInstruction : Obligations.StepRunsTheDecodedInstruction := by
  intro s hready hloaded
  refine ⟨fun w i hw hdec => ?_, fun hend => step_of_ended hready hloaded (fetch_of_end hend), fun hbeyond => ?_,
    fun w e hw herr => ?_⟩
  · obtain ⟨t, ht, _⟩ := exec_answer i s
    exact ⟨t, ht, step_of_instr hready hloaded ((fetch_of_word hw).trans (decodeAt_of_ok hdec)) ht⟩
  · exact ⟨_, step_of_invalid hready hloaded (fetch_of_beyond hbeyond), rfl⟩
  · exact ⟨_, step_of_invalid hready hloaded ((fetch_of_word hw).trans (decodeAt_of_error herr)), rfl⟩

/-- Settles O13: unloaded and stopped machines have no step, and a ready, loaded one answers in every case of the fetch
rule. -/
theorem noStepUnloadedOrHalted : Obligations.NoStepUnloadedOrHalted := by
  refine fun s => ⟨step_of_unloaded, step_of_not_ready, fun hloaded hready => ?_⟩
  obtain ⟨t, ht, _⟩ := step_answer hready hloaded
  exact ⟨t, ht⟩

/-- Settles O15: the fetch finds the placed word in a machine made ready, and the report at the end of the program does
nothing elsewhere. -/
theorem placedWordRunsNext : Obligations.PlacedWordRunsNext := by
  intro s w i hi
  obtain ⟨t, ht, _⟩ := exec_answer i (s.withFetchWord 32 w)
  refine ⟨t, ht, fun hpc => ?_⟩
  rw [step_of_instr rfl (withFetchWord_loaded s 32 w) (fetch_withFetchWord hi) ht, settle_of_not_end hpc]

end Sys2Proof.Machine
end

-- Proofs of the invariant statements: the checks of an access, the invariant's part on data and its part on control, and
-- what every step and host operation does to each.
section
namespace Sys2Proof.Machine

/-! ### The checks of an access as arithmetic (R49, R54, R55) -/

theorem misaligned_iff {ea : Word} {n : Size} : misaligned ea n = true ↔ u ea % n.bytes ≠ 0 := by
  cases n with
  | byte => simp [misaligned, Size.bytes, Nat.mod_one]
  | half | word => simp [misaligned, Size.bytes, ← BitVec.toNat_inj]

theorem not_misaligned_iff {ea : Word} {n : Size} : misaligned ea n = false ↔ u ea % n.bytes = 0 := by
  rw [← Bool.not_eq_true, misaligned_iff, not_not]

section
variable {c : Config} {ea : Word} {n : Size}

theorem outOfRange_iff : outOfRange c ea n = true ↔ u ea + n.bytes > c.dmemSize := decide_eq_true_iff

theorem not_outOfRange_iff : outOfRange c ea n = false ↔ u ea + n.bytes ≤ c.dmemSize := by
  rw [← Bool.not_eq_true, outOfRange_iff, gt_iff_lt, not_lt]

theorem checkAccess_eq_none_iff : checkAccess c ea n = none ↔ u ea % n.bytes = 0 ∧ u ea + n.bytes ≤ c.dmemSize := by
  rw [checkAccess_eq_none, not_misaligned_iff, not_outOfRange_iff]

theorem checkAccess_of_misaligned (hea : u ea % n.bytes ≠ 0)
    (h : u ea + n.bytes ≤ c.dmemSize ∨ c.faultOrder = .misalignedFirst) :
    checkAccess c ea n = some (.misalignedAccess ea) := by
  unfold checkAccess
  cases hc : c.faultOrder with
  | misalignedFirst => simp [misaligned_iff.mpr hea]
  | rangeFirst => simp [misaligned_iff.mpr hea, not_outOfRange_iff.mpr (h.resolve_right (by simp [hc]))]

theorem checkAccess_of_outOfRange (hea : u ea + n.bytes > c.dmemSize)
    (h : u ea % n.bytes = 0 ∨ c.faultOrder = .rangeFirst) :
    checkAccess c ea n = some (.memoryOutOfRange ea) := by
  unfold checkAccess
  cases hc : c.faultOrder with
  | rangeFirst => simp [outOfRange_iff.mpr hea]
  | misalignedFirst => simp [outOfRange_iff.mpr hea, not_misaligned_iff.mpr (h.resolve_right (by simp [hc]))]

end

/-! ### The invariant in two parts -/

/-- The clauses of the invariant on what `STATUS`, `pc` and the controller do not touch, over the fields they speak of. -/
structure DataClauses (c : Config) (cell0 : Word) (program : List Word) (dm pm : Memory) (bps : List Nat)
    (access : Option (Word × Size)) : Prop where
  cfg : c.wf = true
  zero : cell0 = 0
  program : program.length ≤ 2 ^ 32 - 1
  dmemForm : dm.wf = true
  dmemPlace : ∀ cell ∈ dm, cell.1 < c.dmemSize ∧ c.inWindow cell.1 = false
  periphForm : pm.wf = true
  periphPlace : ∀ cell ∈ pm, c.inWindow cell.1 = true
  breakpoints : bps.Pairwise (· < ·)
  lma : ∀ ea n, access = some (ea, n) → checkAccess c ea n = none

/-- The data part of the invariant. An update of the other fields alone does not change it, by definition. -/
def State.DataInv (s : State) : Prop :=
  DataClauses s.cfg s.regs[0] s.imem s.dmem s.periph s.breakpoints s.lma

/-- The control part of the invariant: `STATUS`, the controller and `pc` agree. -/
structure State.ControlInv (s : State) : Prop where
  halted : s.controller = .halted ↔ s.status ≠ .ready
  unloaded : s.controller = .unloaded → s.imem = []
  ended : s.status = .terminated → u s.pc = s.imem.length
  atEnd : s.status = .ready → u s.pc = s.imem.length → s.imem = []
  faulted : ∀ k, s.status = .fault k →
    u s.pc ≠ s.imem.length ∧ (k ≠ .invalidInstruction → u s.pc < s.imem.length)

theorem inv_iff {s : State} : s.Inv ↔ s.DataInv ∧ s.ControlInv where
  mp h := ⟨⟨h.cfg, h.zero, h.program, h.dmemForm, h.dmemPlace, h.periphForm, h.periphPlace, h.breakpoints, h.lma⟩,
    h.halted, h.unloaded, h.ended, h.atEnd, h.faulted⟩
  mpr h := by
    obtain ⟨⟨hcfg, hzero, hprogram, hdform, hdplace, hpform, hpplace, hbreak, hlma⟩, hhalted, hunloaded, hended, hatEnd,
      hfaulted⟩ := h
    exact ⟨hcfg, hzero, hprogram, hdform, hdplace, hpform, hpplace, hbreak, hlma, hhalted, hunloaded, hended, hatEnd,
      hfaulted⟩

theorem State.DataInv.memWf {s : State} (h : s.DataInv) : s.MemWf := ⟨h.dmemForm, h.periphForm⟩

/-! ### The data part under the operations on registers and memory -/

section
variable {s : State}

theorem dataInv_writeReg (h : s.DataInv) (r : Reg) (v : Word) : (s.writeReg r v).DataInv := by
  simpa only [State.DataInv, writeReg_cell_zero, writeReg_cfg, writeReg_imem, writeReg_dmem, writeReg_periph,
    writeReg_breakpoints, writeReg_lma] using h

theorem dataInv_noteAccess (h : s.DataInv) {ea : Word} {n : Size} (hcheck : checkAccess s.cfg ea n = none) :
    (s.noteAccess ea n).DataInv where
  __ := h
  lma := by
    rintro _ _ ⟨⟩
    exact hcheck

/-- Bytes written in range: those outside the window are the only new cells of `DMEM`, the others of `PERIPH`. -/
theorem dataInv_setDataBytes (h : s.DataInv) {a : Nat} {bs : List Byte} (hrange : a + bs.length ≤ s.cfg.dmemSize) :
    (s.setDataBytes a bs).DataInv := by
  obtain ⟨hdmem, hperiph⟩ := setDataBytes_cells s a bs
  obtain ⟨hdform, hpform⟩ := setDataBytes_memWf h.memWf a bs
  unfold State.DataInv
  rw [setDataBytes_cfg, setDataBytes_regs, setDataBytes_imem, setDataBytes_breakpoints, setDataBytes_lma]
  refine ⟨h.cfg, h.zero, h.program, hdform, fun c hc => ?_, hpform, fun c hc => ?_, h.breakpoints, h.lma⟩
  · obtain hold | ⟨_, hlt, hwindow⟩ := hdmem c hc
    · exact h.dmemPlace c hold
    · exact ⟨by omega, hwindow⟩
  · exact (hperiph c hc).elim (h.periphPlace c) id

theorem dataInv_of_answer {i : Instr} {t : State} (ha : Answer i s t) (h : s.DataInv) : t.DataInv := by
  cases ha with
  | register => exact dataInv_writeReg h _ _
  | load _ _ _ hcheck => exact dataInv_writeReg (dataInv_noteAccess h hcheck) _ _
  | store _ hlength _ hcheck =>
    obtain ⟨_, hrange⟩ := checkAccess_eq_none_iff.mp hcheck
    have hstored := dataInv_setDataBytes h (hlength.symm ▸ hrange)
    exact dataInv_noteAccess hstored (by rw [setDataBytes_cfg]; exact hcheck)
  | link => exact dataInv_writeReg h _ _
  | hilo | jump | fault => exact h

theorem dataInv_settle (h : s.DataInv) : s.settle.DataInv := by
  obtain hs | hs := settle_cases s
  · rw [hs]
    exact h
  · rw [hs]
    exact h

end

/-! ### The control part -/

section
variable {s : State}

theorem controlInv_congr {t : State} (h : s.ControlInv) (hcontroller : t.controller = s.controller)
    (hstatus : t.status = s.status) (himem : t.imem = s.imem) (hpc : t.pc = s.pc) : t.ControlInv := by
  obtain ⟨hhalted, hunloaded, hended, hatEnd, hfaulted⟩ := h
  rw [← hcontroller, ← hstatus] at hhalted
  rw [← hcontroller, ← himem] at hunloaded
  rw [← hstatus, ← himem, ← hpc] at hended hatEnd
  simp only [← hstatus, ← himem, ← hpc] at hfaulted
  exact ⟨hhalted, hunloaded, hended, hatEnd, hfaulted⟩

theorem controlInv_terminate (h : u s.pc = s.imem.length) : s.terminate.ControlInv where
  halted := by simp
  unloaded := nofun
  ended _ := h
  atEnd := nofun
  faulted := nofun

theorem controlInv_takeFault {r : Raised} (hpc : u s.pc ≠ s.imem.length)
    (hinside : r.kind ≠ .invalidInstruction → u s.pc < s.imem.length) : (s.takeFault r).ControlInv where
  halted := by simp
  unloaded := nofun
  ended := nofun
  atEnd := nofun
  faulted := by
    rintro _ ⟨⟩
    exact ⟨hpc, hinside⟩

/-- An instruction that completes, settled: at the end the program terminates, elsewhere the machine goes on. -/
theorem controlInv_settle {t : State} (h : s.ControlInv) (hready : s.status = .ready) (hsame : s.SameSystem t) :
    t.settle.ControlInv := by
  have ht : t.status = .ready := hsame.status.trans hready
  by_cases hend : u t.pc = t.imem.length
  · rw [State.settle, if_pos ⟨ht, hend⟩]
    exact controlInv_terminate hend
  · rw [settle_of_not_end hend]
    refine ⟨?_, ?_, ?_, fun _ hpc => absurd hpc hend, ?_⟩
    · rw [hsame.controller, hsame.status]
      exact h.halted
    · rw [hsame.controller, hsame.imem]
      exact h.unloaded
    · rw [ht]
      nofun
    · rw [ht]
      nofun

/-- Another controller state, halted exactly when the machine is. -/
theorem inv_setController (h : s.Inv) {c : Controller} (hhalted : c = .halted ↔ s.status ≠ .ready)
    (hloaded : c ≠ .unloaded) : ({ s with controller := c } : State).Inv :=
  { h with halted := hhalted, unloaded := fun hc => absurd hc hloaded }

end

theorem inv_of_step {s t : State} (h : s.Inv) (hstep : step s = .next t) : t.Inv := by
  obtain ⟨hdata, hcontrol⟩ := inv_iff.mp h
  obtain ⟨hready, hloaded⟩ := ready_of_step hstep
  obtain ⟨q, hq, hcases⟩ := step_answer hready hloaded
  cases hstep.symm.trans hq
  rw [inv_iff]
  obtain ⟨rfl, hend⟩ | ⟨r, rfl, hkind, hpc⟩ | ⟨i, m, ha, rfl, hlt⟩ := hcases
  · exact ⟨hdata, controlInv_terminate hend⟩
  · exact ⟨hdata, controlInv_takeFault hpc fun hne => absurd hkind hne⟩
  · refine ⟨dataInv_settle (dataInv_of_answer ha hdata), ?_⟩
    obtain hsame | ⟨r, hkind, rfl⟩ := ha.sameSystem_or_fault
    · exact controlInv_settle hcontrol hready hsame
    · rw [settle_takeFault]
      exact controlInv_takeFault hlt.ne fun _ => hlt

/-! ### Clearing and loading (R240, R241) -/

theorem dataInv_cleared {c : Config} {breakpoints : List Nat} (hc : c.wf = true)
    (hb : breakpoints.Pairwise (· < ·)) : (State.cleared c breakpoints).DataInv where
  cfg := hc
  zero := by simp [State.cleared]
  program := by simp [State.cleared]
  dmemForm := rfl
  dmemPlace := nofun
  periphForm := rfl
  periphPlace := nofun
  breakpoints := hb
  lma := nofun

theorem inv_cleared {c : Config} {breakpoints : List Nat} (hc : c.wf = true) (hb : breakpoints.Pairwise (· < ·)) :
    (State.cleared c breakpoints).Inv := by
  refine inv_iff.mpr ⟨dataInv_cleared hc hb, ?_, fun _ => rfl, nofun, fun _ _ => rfl, nofun⟩
  simp [State.cleared]

theorem wf_writeAll {m : Memory} (h : m.wf = true) (cells : List Host.Cell) : (m.writeAll cells).wf = true := by
  induction cells generalizing m with
  | nil => exact h
  | cons cell cells ih => exact ih (Memory.wf_write h ..)

theorem mem_writeAll {c : Host.Cell} {m : Memory} {cells : List Host.Cell} (h : c ∈ m.writeAll cells) :
    c ∈ cells ∨ c ∈ m := by
  induction cells generalizing m with
  | nil => exact .inr h
  | cons cell cells ih =>
    obtain hlater | hnow := ih h
    · exact .inl (List.mem_cons_of_mem _ hlater)
    · obtain rfl | hold := Memory.mem_write hnow
      · exact .inl List.mem_cons_self
      · exact .inr hold

theorem program_ok_iff {p : Program} {c : Config} : p.ok c = true ↔
    p.words.length ≤ 2 ^ 32 - 1 ∧ ∀ cell ∈ p.dmemInit, cell.1 < c.dmemSize ∧ c.inWindow cell.1 = false := by
  simp [Program.ok]

theorem loadSource_of_ok {s : State} {p : Program} (h : p.ok s.cfg = true) : s.loadSource (some p) = s.loaded p :=
  if_pos h

theorem inv_loaded {s : State} (hc : s.cfg.wf = true) (hb : s.breakpoints.Pairwise (· < ·)) {p : Program}
    (hp : p.ok s.cfg = true) : (s.loaded p).Inv := by
  obtain ⟨hwords, hinit⟩ := program_ok_iff.mp hp
  refine inv_iff.mpr ⟨{ dataInv_cleared hc hb with
    program := hwords
    dmemForm := wf_writeAll rfl p.dmemInit
    dmemPlace := fun c hmem => hinit c ((mem_writeAll hmem).resolve_right nofun) }, ?_, nofun, nofun, ?_, nofun⟩
  · simp [State.loaded, State.cleared]
  · exact fun _ hend => List.length_eq_zero_iff.mp hend.symm

theorem inv_loadSource {s : State} (hc : s.cfg.wf = true) (hb : s.breakpoints.Pairwise (· < ·))
    (assembled : Option Program) : (s.loadSource assembled).Inv := by
  unfold State.loadSource
  split
  · split
    · next hp => exact inv_loaded hc hb hp
    · exact inv_cleared hc hb
  · exact inv_cleared hc hb

/-! ### The breakpoint set (R226, log entry 17) -/

theorem mem_insertIndex {n m : Nat} {l : List Nat} : m ∈ insertIndex n l ↔ m = n ∨ m ∈ l := by
  fun_induction insertIndex n l with
  | case1 | case2 => simp
  | case3 => simp
  | case4 x l _ _ ih => simp [ih, or_left_comm]

theorem mem_indexSet {m : Nat} {ns : List Nat} : m ∈ indexSet ns ↔ m ∈ ns := by
  induction ns with
  | nil => rfl
  | cons n ns ih => rw [indexSet, mem_insertIndex, ih, List.mem_cons]

theorem pairwise_insertIndex {n : Nat} {l : List Nat} (h : l.Pairwise (· < ·)) : (insertIndex n l).Pairwise (· < ·) := by
  fun_induction insertIndex n l with
  | case1 => exact List.pairwise_singleton _ _
  | case2 x l hlt =>
    refine List.pairwise_cons.mpr ⟨fun m hm => ?_, h⟩
    obtain rfl | hm := List.mem_cons.mp hm
    · exact hlt
    · exact hlt.trans (List.rel_of_pairwise_cons h hm)
  | case3 => exact h
  | case4 x l hlt hne ih =>
    obtain ⟨hx, hl⟩ := List.pairwise_cons.mp h
    refine List.pairwise_cons.mpr ⟨fun m hm => ?_, ih hl⟩
    obtain rfl | hm := mem_insertIndex.mp hm
    · omega
    · exact hx m hm

theorem pairwise_indexSet (ns : List Nat) : (indexSet ns).Pairwise (· < ·) := by
  induction ns with
  | nil => exact .nil
  | cons n ns ih => exact pairwise_insertIndex ih

/-! ### The host's operations -/

section
variable {s : State}

theorem inv_setRegister (h : s.Inv) (r : HostReg) (value : Int) : (s.setRegister r value).Inv := by
  unfold State.setRegister
  split
  · cases r with
    | gpr r =>
      obtain ⟨hdata, hcontrol⟩ := inv_iff.mp h
      refine inv_iff.mpr ⟨dataInv_writeReg hdata _ _, controlInv_congr hcontrol ?_ ?_ ?_ ?_⟩
      all_goals simp
    | hi | lo => exact { h with }
  · exact h

theorem wordSettable_inRange {c : Config} {addr : Word} (h : wordSettable c addr = true) : u addr + 4 ≤ c.dmemSize := by
  simp only [wordSettable, not_outOfRange_iff, Size.bytes, Bool.and_eq_true, Bool.not_eq_true'] at h
  obtain ⟨⟨_, hrange⟩, _⟩ := h
  exact hrange

theorem inv_setMemoryWord (h : s.Inv) (addr : Word) (value : Int) : (s.setMemoryWord addr value).Inv := by
  unfold State.setMemoryWord
  split
  · next hand =>
    obtain ⟨_, hsettable⟩ := Bool.and_eq_true_iff.mp hand
    obtain ⟨hdata, hcontrol⟩ := inv_iff.mp h
    have hrange := wordSettable_inRange hsettable
    refine inv_iff.mpr ⟨dataInv_setDataBytes hdata (by simpa using hrange), controlInv_congr hcontrol ?_ ?_ ?_ ?_⟩
    all_goals simp
  · exact h

theorem inv_afterStep (h : s.Inv) : s.afterStep.Inv := by
  unfold State.afterStep
  split
  · next hready => exact inv_setController h (by simp [hready]) nofun
  · exact h
  · exact h

theorem inv_stepCall (h : s.Inv) : s.stepCall.1.Inv := by
  unfold State.stepCall
  split
  · split
    · next t hstep => exact inv_afterStep (inv_of_step h hstep)
    · exact h
    · exact h
  · exact h

theorem inv_runLoop {fuel : Nat} {skip : Bool} {r : State × Tag} (h : s.Inv) (hrun : runLoop fuel skip s = some r) :
    r.1.Inv := by
  induction fuel generalizing skip s with
  | zero => cases hrun
  | succ fuel ih =>
    unfold runLoop at hrun
    split at hrun
    · next hstop =>
      cases hrun
      exact inv_setController h (by simp [hstop]) nofun
    · next hready =>
      split at hrun
      · cases hrun
        exact inv_setController h (by simpa using hready) nofun
      · split at hrun
        · next t hstep =>
          have ht := inv_of_step h hstep
          split at hrun
          · exact ih ht hrun
          · cases hrun
            exact ht
        · cases hrun
        · cases hrun

theorem ready_of_accepts (h : s.Inv) (haccepts : s.controller.accepts = true) : s.status = .ready := by
  by_contra hstop
  rw [h.halted.mpr hstop] at haccepts
  cases haccepts

theorem inv_runCall (h : s.Inv) {fuel : Nat} {r : State × Option Tag} (hrun : s.runCall fuel = some r) : r.1.Inv := by
  unfold State.runCall at hrun
  split at hrun
  · next haccepts =>
    obtain ⟨r', hr', rfl⟩ := Option.map_eq_some_iff.mp hrun
    have hrunning := inv_setController h (c := .running) (by simp [ready_of_accepts h haccepts]) nofun
    exact inv_runLoop hrunning hr'
  · cases hrun
    exact h

end

/-! ### The initial data of a load (R62) -/

theorem read_writeAll_of_unnamed {m : Memory} {cells : List Host.Cell} {a : Nat} (h : ∀ c ∈ cells, c.1 ≠ a) :
    (m.writeAll cells).read a = m.read a := by
  induction cells generalizing m with
  | nil => rfl
  | cons cell cells ih =>
    obtain ⟨hcell, hcells⟩ := List.forall_mem_cons.mp h
    rw [Memory.writeAll, ih hcells, Memory.read_write_other _ _ hcell.symm]

theorem read_writeAll_of_mem {m : Memory} {cells : List Host.Cell} (hm : m.wf = true)
    (hdistinct : cells.Pairwise fun c d => c.1 ≠ d.1) {c : Host.Cell} (hc : c ∈ cells) :
    (m.writeAll cells).read c.1 = c.2 := by
  induction cells generalizing m with
  | nil => cases hc
  | cons cell cells ih =>
    obtain ⟨hfirst, hrest⟩ := List.pairwise_cons.mp hdistinct
    obtain rfl | hc := List.mem_cons.mp hc
    · rw [Memory.writeAll, read_writeAll_of_unnamed fun d hd => (hfirst d hd).symm, Memory.read_write_same hm]
    · exact ih (Memory.wf_write hm ..) hrest hc

/-! ### The statements -/

/-- Settles O4: an instruction keeps the part on data by its shape; the part on control holds of each way a step can end. -/
theorem everyStepKeepsTheInvariant : Obligations.EveryStepKeepsTheInvariant := fun _ _ => inv_of_step

/-- Settles O5: one lemma per operation. -/
theorem hostOperationsKeepTheInvariant : Obligations.HostOperationsKeepTheInvariant := fun _ h =>
  ⟨inv_cleared h.cfg .nil, inv_loadSource h.cfg h.breakpoints,
    fun ns => { h with breakpoints := pairwise_indexSet ns }, inv_setRegister h, inv_setMemoryWord h, inv_stepCall h,
    fun _ _ => inv_runCall h⟩

/-- Settles O3: the cleared state of the default parameters. -/
theorem resetMeetsTheInvariant : Obligations.ResetMeetsTheInvariant := inv_cleared (by decide) .nil

/-- Settles O2: a load is the cleared state with the program and its initial data, an assembly error the cleared state. -/
theorem loadInstallsProgram : Obligations.LoadInstallsProgram := by
  refine fun s p => ⟨fun hp => ?_, rfl, rfl, rfl⟩
  rw [loadSource_of_ok hp]
  exact ⟨cleared_readReg s.cfg s.breakpoints, rfl, rfl, rfl, rfl, rfl, rfl, rfl, fun _ => rfl,
    fun _ => read_writeAll_of_unnamed, fun hdistinct _ => read_writeAll_of_mem rfl hdistinct, rfl, rfl⟩

/-- Settles O57: the set in its one form has the members of the list. -/
theorem setBreakpointsReplacesTheSet : Obligations.SetBreakpointsReplacesTheSet :=
  fun _ _ => ⟨fun _ => mem_indexSet, rfl⟩

end Sys2Proof.Machine
end

-- Proofs of the statements on the data space: canonical memories, and what loads and stores read and write.
section
namespace Sys2Proof.Machine

/-! ### Canonical memories that read alike are equal -/

theorem Memory.read_head (k : Nat) (v : Byte) (m : Memory) : Memory.read ((k, v) :: m) k = v := if_pos rfl

theorem Memory.read_tail {a k : Nat} (h : a ≠ k) (v : Byte) (m : Memory) :
    Memory.read ((k, v) :: m) a = Memory.read m a := if_neg h

/-- A canonical memory's first cell is its lowest nonzero byte. -/
theorem Memory.read_below {a k : Nat} {v : Byte} {m : Memory} (h : Memory.wf ((k, v) :: m) = true) (ha : a < k) :
    Memory.read ((k, v) :: m) a = 0 := by
  obtain ⟨_, habove, _⟩ := Memory.wf_cons.mp h
  rw [Memory.read_tail ha.ne, Memory.read_of_above habove ha.le]

/-- Of two memories that read alike, the second's first cell is at no higher address; the same with the two exchanged. -/
theorem Memory.head_le {k j : Nat} {v w : Byte} {m n : Memory} (hm : Memory.wf ((k, v) :: m) = true)
    (hn : Memory.wf ((j, w) :: n) = true)
    (hread : ∀ a, Memory.read ((k, v) :: m) a = Memory.read ((j, w) :: n) a) : j ≤ k := by
  obtain ⟨hv, _, _⟩ := Memory.wf_cons.mp hm
  by_contra hlt
  have hk := hread k
  rw [Memory.read_head, Memory.read_below hn (Nat.lt_of_not_le hlt)] at hk
  exact hv hk

theorem Memory.eq_of_read_eq {m n : Memory} (hm : m.wf = true) (hn : n.wf = true)
    (hread : ∀ a, m.read a = n.read a) : m = n := by
  induction m generalizing n with
  | nil =>
    cases n with
    | nil => rfl
    | cons c n => exact absurd ((hread c.1).trans (Memory.read_head ..)).symm (Memory.wf_cons.mp hn).1
  | cons c m ih =>
    cases n with
    | nil => exact absurd ((Memory.read_head ..).symm.trans (hread c.1)) (Memory.wf_cons.mp hm).1
    | cons d n =>
      obtain ⟨k, v⟩ := c
      obtain ⟨j, w⟩ := d
      obtain rfl : k = j := Nat.le_antisymm (Memory.head_le hn hm fun a => (hread a).symm) (Memory.head_le hm hn hread)
      obtain ⟨_, hkm, hm⟩ := Memory.wf_cons.mp hm
      obtain ⟨_, hkn, hn⟩ := Memory.wf_cons.mp hn
      have hvw : v = w := by simpa only [Memory.read_head] using hread k
      have htail : m = n := ih hm hn fun a => by
        obtain rfl | hne := eq_or_ne a k
        · rw [Memory.read_of_above hkm le_rfl, Memory.read_of_above hkn le_rfl]
        · simpa only [Memory.read_tail hne] using hread a
      rw [hvw, htail]

/-! ### What a load or store does by the checks of its access -/

/-- An instruction that completes when its access passes the checks and takes the check's fault when not. -/
theorem accessOutcome_of_checkAccess {i : Instr} {s : State} {ea : Word} (n : Size) {done : State → Prop}
    (hdone : checkAccess s.cfg ea n = none → Executes i s done)
    (hfault : ∀ r, checkAccess s.cfg ea n = some r → exec i s = .next (s.takeFault r)) :
    AccessOutcome i s ea n.bytes done where
  done haligned hrange := hdone (checkAccess_eq_none_iff.mpr ⟨haligned, hrange⟩)
  misaligned hea h := ⟨_, hfault _ (checkAccess_of_misaligned hea h), rfl⟩
  outOfRange hea h := ⟨_, hfault _ (checkAccess_of_outOfRange hea h), rfl⟩

theorem accessOutcome_of_load {i : Instr} {s : State} {ea : Word} (n : Size) {extend : Nat → Word} {rt : Reg} {v : Word}
    (h : exec i s = s.load n extend rt ea) (hv : extend (s.readValue ea n) = v) :
    AccessOutcome i s ea n.bytes fun t => s.Loads t n ea rt v := by
  refine accessOutcome_of_checkAccess n (fun hc => ?_) fun r hr => h.trans (load_fault s extend rt hr)
  rw [Executes, h, ← hv]
  exact load_ok s extend rt hc

theorem accessOutcome_of_store {i : Instr} {s : State} (hm : s.MemWf) {ea : Word} (n : Size) {v : Word} {bs : List Byte}
    (h : exec i s = s.store n v ea) (hbs : inOrder s.cfg.endian (splitBytes v n.bytes) = bs) :
    AccessOutcome i s ea n.bytes fun t => s.Stores t n ea bs := by
  refine accessOutcome_of_checkAccess n (fun hc => ?_) fun r hr => h.trans (store_fault s v hr)
  rw [Executes, h, ← hbs]
  exact store_ok hm v hc

/-! ### The value of the bytes read, and the bytes of the value written (R51, R58) -/

theorem ofNat_joinBytes_byte (a : Byte) : BitVec.ofNat 8 (joinBytes [a]) = a := by
  simp [joinBytes]

theorem ofNat_joinBytes_half (a b : Byte) : BitVec.ofNat 16 (joinBytes [a, b]) = b ++ a := by
  apply BitVec.eq_of_toNat_eq
  simp only [joinBytes, append_toNat, BitVec.toNat_ofNat]
  omega

theorem ofNat_joinBytes_word (a b c d : Byte) : BitVec.ofNat 32 (joinBytes [a, b, c, d]) = d ++ c ++ b ++ a := by
  apply BitVec.eq_of_toNat_eq
  simp only [joinBytes, append_toNat, BitVec.toNat_ofNat]
  omega

section
variable (s : State) (ea : Word)

theorem extendByte_readValue : extendByte (s.readValue ea .byte) = (s.dataByte (u ea)).signExtend 32 := by
  rw [extendByte, State.readValue]
  cases s.cfg.endian
  all_goals exact congrArg (BitVec.signExtend 32) (ofNat_joinBytes_byte _)

theorem extendHalf_readValue : extendHalf (s.readValue ea .half) = (s.halfAt (u ea)).signExtend 32 := by
  rw [extendHalf, State.readValue, State.halfAt]
  cases s.cfg.endian
  all_goals exact congrArg (BitVec.signExtend 32) (ofNat_joinBytes_half _ _)

theorem extendWord_readValue : extendWord (s.readValue ea .word) = s.wordAt (u ea) := by
  rw [extendWord, State.readValue, State.wordAt]
  cases s.cfg.endian
  all_goals exact ofNat_joinBytes_word _ _ _ _

end

theorem extractLsb'_ushiftRight (v : Word) (i k n : Nat) : (v >>> i).extractLsb' k n = v.extractLsb' (i + k) n := by
  ext j hj
  simp [Nat.add_assoc]

theorem splitBytes_word (e : Endian) (v : Word) : inOrder e (splitBytes v 4) = wordBytes e v := by
  simp only [splitBytes, extractLsb'_ushiftRight, ← BitVec.shiftRight_add]
  cases e <;> rfl

theorem splitBytes_half (e : Endian) (v : Word) : inOrder e (splitBytes v 2) = halfBytes e v := by
  simp only [splitBytes, extractLsb'_ushiftRight]
  cases e <;> rfl

theorem splitBytes_byte (e : Endian) (v : Word) : inOrder e (splitBytes v 1) = [v.extractLsb' 0 8] := by
  cases e <;> rfl

/-! ### A load after a completed store (T5) -/

/-- The bytes a store wrote are the bytes read. -/
theorem dataBytes_of_stored {t : State} {a : Nat} {bs : List Byte}
    (h : ∀ k, k < bs.length → some (t.dataByte (a + k)) = bs[k]?) : t.dataBytes a bs.length = bs := by
  induction bs generalizing a with
  | nil => rfl
  | cons b bs ih =>
    have hfirst : t.dataByte a = b := Option.some.inj (h 0 (by simp))
    have hrest : t.dataBytes (a + 1) bs.length = bs := ih fun k hk => by
      simpa [Nat.add_assoc, Nat.add_comm 1 k] using h (k + 1) (by simpa using hk)
    rw [List.length_cons, State.dataBytes, hfirst, hrest]

/-- A store that leaves the machine ready passed the checks. -/
theorem stores_of_store {s t : State} (hm : s.MemWf) {n : Size} {v ea : Word} (h : s.store n v ea = .next t)
    (ht : t.status = .ready) :
    checkAccess s.cfg ea n = none ∧ s.Stores t n ea (inOrder s.cfg.endian (splitBytes v n.bytes)) := by
  cases hc : checkAccess s.cfg ea n with
  | none =>
    obtain ⟨q, hq, hstores⟩ := store_ok hm v hc
    cases h.symm.trans hq
    exact ⟨rfl, hstores⟩
  | some r =>
    cases h.symm.trans (store_fault s v hc)
    cases ht

theorem effAddr_of_sameRegs {s t : State} (h : s.SameRegsBut t []) (rs : Reg) (offset : Int) :
    t.effAddr rs offset = s.effAddr rs offset := by
  rw [State.effAddr, State.effAddr, h rs nofun]

/-- The value read back is the low part of the one stored. -/
theorem readValue_of_stores {s t : State} {n : Size} {v ea : Word}
    (h : s.Stores t n ea (inOrder s.cfg.endian (splitBytes v n.bytes))) : t.readValue ea n = u v % 2 ^ (8 * n.bytes) := by
  have hbytes : t.dataBytes (u ea) n.bytes = inOrder s.cfg.endian (splitBytes v n.bytes) := by
    simpa using dataBytes_of_stored fun k hk => h.stored k (by simpa using hk)
  rw [State.readValue, hbytes, h.system.cfg, inOrder_inOrder, joinBytes_splitBytes]

theorem executes_load_of_store {i j : Instr} {s t : State} (hm : s.MemWf) {n : Size} {v : Word} {extend : Nat → Word}
    {rd rs : Reg} {offset : Int} (hrd : rd ≠ 0) (hi : exec i s = s.store n v (s.effAddr rs offset))
    (hj : exec j t = t.load n extend rd (t.effAddr rs offset)) (hstep : exec i s = .next t) (ht : t.status = .ready) :
    Executes j t fun q => q.readReg rd = extend (u v % 2 ^ (8 * n.bytes)) := by
  obtain ⟨hcheck, hstores⟩ := stores_of_store hm (hi.symm.trans hstep) ht
  rw [effAddr_of_sameRegs hstores.regs] at hj
  obtain ⟨q, hq, hloads⟩ := load_ok t extend rd (hstores.system.cfg.symm ▸ hcheck)
  exact ⟨q, hj.trans hq, hloads.result.trans (by rw [if_neg hrd, readValue_of_stores hstores])⟩

theorem ofNat_mod_eq_extractLsb' (v : Word) (k : Nat) : BitVec.ofNat k (u v % 2 ^ k) = v.extractLsb' 0 k := by
  apply BitVec.eq_of_toNat_eq
  simp

theorem extendWord_mod (v : Word) : extendWord (u v % 2 ^ (8 * Size.word.bytes)) = v := by
  rw [extendWord, Nat.mod_eq_of_lt (show u v < 2 ^ (8 * Size.word.bytes) from v.isLt), BitVec.ofNat_toNat, BitVec.setWidth_eq]

theorem extendHalf_mod (v : Word) :
    extendHalf (u v % 2 ^ (8 * Size.half.bytes)) = (v.extractLsb' 0 16).signExtend 32 :=
  congrArg (BitVec.signExtend 32) (ofNat_mod_eq_extractLsb' v 16)

theorem extendByte_mod (v : Word) : extendByte (u v % 2 ^ (8 * Size.byte.bytes)) = (v.extractLsb' 0 8).signExtend 32 :=
  congrArg (BitVec.signExtend 32) (ofNat_mod_eq_extractLsb' v 8)

/-! ### Narrower loads from a stored word (R51) -/

/-- The address of a narrower load inside an aligned word does not wrap. -/
theorem u_effAddr_inside {t : State} {base : Reg} {ea k : Nat} (hbase : u (t.readReg base) = ea) (hea : ea % 4 = 0)
    (hk : k < 4) : u (t.effAddr base k) = ea + k := by
  have hlt : u (t.readReg base) < 2 ^ 32 := (t.readReg base).isLt
  have himm : u (sextImm k) = k := by
    rw [sextImm_eq (fitsSigned16_iff.mpr (by omega)), trunc32, BitVec.ofInt_natCast]
    exact Nat.mod_eq_of_lt (by omega)
  rw [State.effAddr, himm, hbase, ← Int.natCast_add, trunc32, BitVec.ofInt_natCast]
  exact Nat.mod_eq_of_lt (by omega)

theorem wordBytes_little_getElem? (v : Word) {k : Nat} (hk : k < 4) :
    (wordBytes .little v)[k]? = some (v.extractLsb' (8 * k) 8) := by
  interval_cases k <;> rfl

theorem append_extractBytes (v : Word) (k : Nat) :
    v.extractLsb' (8 * (k + 1)) 8 ++ v.extractLsb' (8 * k) 8 = v.extractLsb' (8 * k) 16 :=
  BitVec.extractLsb'_append_extractLsb'_eq_extractLsb' (Nat.mul_succ ..)

section
variable {s t : State} (hm : s.MemWf) (hlittle : s.cfg.endian = .little) {rt rs rd base : Reg} (hrd : rd ≠ 0)
  {offset : Int} (hstep : exec (.sw rt offset rs) s = .next t) (ht : t.status = .ready) {k : Nat}
  (hbase : u (t.readReg base) = u (eaOf s rs offset))
include hm hlittle hstep ht

/-- A completed `sw`: an aligned word in range, the parameters kept, and byte `k` of the word at `ea + k`. -/
theorem sw_little : u (eaOf s rs offset) % 4 = 0 ∧ u (eaOf s rs offset) + 4 ≤ t.cfg.dmemSize ∧
    t.cfg.endian = .little ∧
    ∀ k, k < 4 → t.dataByte (u (eaOf s rs offset) + k) = (s.readReg rt).extractLsb' (8 * k) 8 := by
  obtain ⟨hcheck, hstores⟩ := stores_of_store (ea := eaOf s rs offset) hm hstep ht
  obtain ⟨haligned, hrange⟩ := checkAccess_eq_none_iff.mp hcheck
  rw [hstores.system.cfg]
  refine ⟨haligned, hrange, hlittle, fun k hk => Option.some.inj ?_⟩
  rw [hstores.stored k hk, hlittle, Size.bytes, splitBytes_word, wordBytes_little_getElem? _ hk]

include hrd hbase

theorem lb_after_sw (hk : k < 4) :
    Executes (.lb rd k base) t fun q => q.readReg rd = ((s.readReg rt).extractLsb' (8 * k) 8).signExtend 32 := by
  obtain ⟨haligned, hrange, _, hbytes⟩ := sw_little hm hlittle hstep ht
  have hea := u_effAddr_inside hbase haligned hk
  have hcheck : checkAccess t.cfg (t.effAddr base k) .byte = none :=
    checkAccess_eq_none_iff.mpr ⟨Nat.mod_one _, by rw [hea, Size.bytes]; omega⟩
  obtain ⟨q, hq, hloads⟩ := load_ok t extendByte rd hcheck
  exact ⟨q, hq, hloads.result.trans (by rw [if_neg hrd, extendByte_readValue, hea, hbytes k hk])⟩

theorem lh_after_sw (hk : k < 4) (heven : k % 2 = 0) :
    Executes (.lh rd k base) t fun q => q.readReg rd = ((s.readReg rt).extractLsb' (8 * k) 16).signExtend 32 := by
  obtain ⟨haligned, hrange, hlittle', hbytes⟩ := sw_little hm hlittle hstep ht
  have hea := u_effAddr_inside hbase haligned hk
  have hcheck : checkAccess t.cfg (t.effAddr base k) .half = none :=
    checkAccess_eq_none_iff.mpr (by rw [hea, Size.bytes]; omega)
  have hhalf : t.halfAt (u (eaOf s rs offset) + k) = (s.readReg rt).extractLsb' (8 * k) 16 := by
    simp only [State.halfAt, hlittle']
    rw [add_assoc, hbytes (k + 1) (by omega), hbytes k hk, append_extractBytes]
  obtain ⟨q, hq, hloads⟩ := load_ok t extendHalf rd hcheck
  exact ⟨q, hq, hloads.result.trans (by rw [if_neg hrd, extendHalf_readValue, hea, hhalf])⟩

end

/-! ### An aligned access does not straddle (R56) -/

theorem config_wf_iff {c : Config} : c.wf = true ↔ c.dmemSize % 4 = 0 ∧ 4 ≤ c.dmemSize ∧ c.dmemSize ≤ 2 ^ 31 ∧
    ∀ r ∈ c.mmioWindow, r.base % 4 = 0 ∧ r.stop ≤ c.dmemSize := by
  simp [Config.wf, and_assoc]

theorem inWindow_eq_of_region {c : Config} {a b : Nat}
    (h : ∀ r ∈ c.mmioWindow, (r.base ≤ a ∧ a < r.stop) ↔ (r.base ≤ b ∧ b < r.stop)) : c.inWindow a = c.inWindow b := by
  rw [Bool.eq_iff_iff]
  simp only [Config.inWindow, List.any_eq_true, Bool.and_eq_true, decide_eq_true_eq]
  exact exists_congr fun r => and_congr_right (h r)

/-- The bytes of one aligned word are in the window together. -/
theorem inWindow_add {c : Config} (hc : c.wf = true) {a k : Nat} (hsame : (a + k) / 4 = a / 4) :
    c.inWindow (a + k) = c.inWindow a := by
  obtain ⟨_, _, _, hwindow⟩ := config_wf_iff.mp hc
  refine inWindow_eq_of_region fun r hr => ?_
  obtain ⟨hbase, _⟩ := hwindow r hr
  unfold Region.stop
  omega

/-! ### A word set by the host (R231) -/

section
variable {s : State} {addr : Word}

theorem setDataBytes_periph_of_outside {a : Nat} {bs : List Byte}
    (h : ∀ k, k < bs.length → s.cfg.inWindow (a + k) = false) : (s.setDataBytes a bs).periph = s.periph := by
  induction bs generalizing s a with
  | nil => rfl
  | cons b bs ih =>
    have hfirst : s.cfg.inWindow a = false := h 0 (by simp)
    rw [State.setDataBytes, ih fun k hk => ?_, State.setDataByte, hfirst]
    · rfl
    · rw [setDataByte_cfg, Nat.add_assoc, Nat.add_comm 1 k]
      exact h (k + 1) (by simpa using hk)

/-- With legal parameters the first byte's place decides for the word. -/
theorem wordSettable_iff {c : Config} (hc : c.wf = true) :
    wordSettable c addr = true ↔ u addr % 4 = 0 ∧ u addr + 4 ≤ c.dmemSize ∧ c.inWindow (u addr) = false := by
  have hsame (h : u addr % 4 = 0) (k : Nat) (hk : k < 4) : c.inWindow (u addr + k) = c.inWindow (u addr) :=
    inWindow_add hc (by omega)
  simp only [wordSettable, not_misaligned_iff, not_outOfRange_iff, Size.bytes, Bool.and_eq_true, Bool.not_eq_true',
    and_assoc]
  refine and_congr_right fun haligned => and_congr_right fun _ => ⟨And.left, fun hw => ⟨hw, ?_, ?_, ?_⟩⟩
  all_goals rw [hsame haligned _ (by decide), hw]

theorem setMemoryWord_of_settable (haccepts : s.controller.accepts = true) (h : wordSettable s.cfg addr = true)
    (v : Int) : s.setMemoryWord addr v = s.setDataBytes (u addr) (wordBytes s.cfg.endian (trunc32 v)) := by
  rw [State.setMemoryWord, haccepts, h, splitBytes_word]
  rfl

theorem setMemoryWord_of_not_settable (h : ¬ wordSettable s.cfg addr = true) (v : Int) : s.setMemoryWord addr v = s := by
  rw [State.setMemoryWord, Bool.eq_false_iff.mpr h, Bool.and_false]
  rfl

theorem wordBytes_length (e : Endian) (v : Word) : (wordBytes e v).length = 4 := by
  cases e <;> rfl

end

/-! ### The statements -/

/-- Settles O34: the three are I-format words with an offset in range, and each loads the value its width reads. -/
theorem loadsReadAndExtend : Obligations.LoadsReadAndExtend := by
  intro s rt rs offset hoffset ea
  exact ⟨⟨encodedIn_signedImm 0x23 hoffset rfl, accessOutcome_of_load .word rfl (extendWord_readValue s ea)⟩,
    ⟨encodedIn_signedImm 0x20 hoffset rfl, accessOutcome_of_load .byte rfl (extendByte_readValue s ea)⟩,
    encodedIn_signedImm 0x21 hoffset rfl, accessOutcome_of_load .half rfl (extendHalf_readValue s ea)⟩

/-- Settles O35: the three are I-format words with an offset in range, and each stores the bytes of its width. -/
theorem storesWriteTheirBytes : Obligations.StoresWriteTheirBytes := by
  intro s rt rs offset hm hoffset ea v
  exact ⟨⟨encodedIn_signedImm 0x2B hoffset rfl, accessOutcome_of_store hm .word rfl (splitBytes_word _ v)⟩,
    ⟨encodedIn_signedImm 0x28 hoffset rfl, accessOutcome_of_store hm .byte rfl (splitBytes_byte _ v)⟩,
    encodedIn_signedImm 0x29 hoffset rfl, accessOutcome_of_store hm .half rfl (splitBytes_half _ v)⟩

/-- Settles O37: the load reads the low part of the word stored, which its width extends. -/
theorem loadAfterStoreGivesTheValue : Obligations.LoadAfterStoreGivesTheValue := by
  intro s rt rs rd offset hm hrd v
  refine ⟨fun t hstep ht _ => ?word, fun t hstep ht _ => ?half, fun t hstep ht _ => ?byte⟩
  case word =>
    rw [← extendWord_mod v]
    exact executes_load_of_store hm hrd rfl rfl hstep ht
  case half =>
    rw [← extendHalf_mod v]
    exact executes_load_of_store hm hrd rfl rfl hstep ht
  case byte =>
    rw [← extendByte_mod v]
    exact executes_load_of_store hm hrd rfl rfl hstep ht

/-- Settles O38: `ea + k` does not wrap and is in range, and byte `k` of the word stands there. -/
theorem mixedWidthAccessIsLittleEndian : Obligations.MixedWidthAccessIsLittleEndian := by
  intro s t rt rs rd base offset k hm hlittle hrd _ hstep ht hk hbase
  exact ⟨lb_after_sw hm hlittle hrd hstep ht hbase hk, lh_after_sw hm hlittle hrd hstep ht hbase hk⟩

/-- Settles O39: the access lies in one aligned word, and the end of memory and the window are bounded by such words. -/
theorem alignedAccessesDoNotStraddle : Obligations.AlignedAccessesDoNotStraddle := by
  intro c ea n k hc hn hea hk
  obtain ⟨hsize, _⟩ := config_wf_iff.mp hc
  have hsame : (u ea + k) / 4 = u ea / 4 := by
    obtain rfl | rfl | rfl := hn <;> omega
  refine ⟨?_, inWindow_add hc hsame⟩
  obtain rfl | rfl | rfl := hn <;> omega

/-- Settles O40: the laws of a write, and extensionality by the first cells. -/
theorem canonicalMemoriesAreEqualData : Obligations.CanonicalMemoriesAreEqualData := fun m _ hm hn =>
  ⟨fun a b => ⟨Memory.wf_write hm a b, Memory.read_write_same hm a b, fun _ => Memory.read_write_other m b⟩,
    Memory.eq_of_read_eq hm hn⟩

/-- Settles O56: a settable word is four bytes of `DMEM` outside the window; at any other address the call does nothing. -/
theorem setMemoryWordWritesPlainMemory : Obligations.SetMemoryWordWritesPlainMemory := by
  intro s addr v hm hc haccepts t
  have hlength := wordBytes_length s.cfg.endian (trunc32 v)
  by_cases h : wordSettable s.cfg addr = true
  · have ht : t = s.setDataBytes (u addr) (wordBytes s.cfg.endian (trunc32 v)) := setMemoryWord_of_settable haccepts h v
    obtain ⟨haligned, hrange, hwindow⟩ := (wordSettable_iff hc).mp h
    refine ⟨fun _ => ⟨?read, fun a ha => ?other⟩, absurd ⟨haligned, hrange, hwindow⟩, ?periph, ?_, ⟨?_, ?_⟩, ?_, ?_,
      ⟨?_, ?_, ?_, ?_, ?_⟩⟩
    case read =>
      have hbytes := dataBytes_setDataBytes hm (u addr) (wordBytes s.cfg.endian (trunc32 v))
      rw [hlength] at hbytes
      rw [ht, State.getMemory, setDataBytes_cfg, if_pos hrange, hbytes]
    case other =>
      rw [ht]
      exact (setDataBytes_read_other s (u addr) _ (hlength.symm ▸ ha)).1
    case periph =>
      rw [ht]
      refine setDataBytes_periph_of_outside fun k hk => ?_
      rw [inWindow_add hc (by omega), hwindow]
    all_goals simp [ht, State.SameRegsBut]
  · have ht : t = s := setMemoryWord_of_not_settable h v
    rw [ht]
    exact ⟨fun hplace => absurd ((wordSettable_iff hc).mpr hplace) h, fun _ => rfl, rfl, fun _ _ => rfl, ⟨rfl, rfl⟩, rfl,
      rfl, rfl, rfl, rfl, rfl, rfl⟩

end Sys2Proof.Machine
end

-- Proofs of the statements on results: products, quotients, bits of logic and shifts, orders, transfers to labels.
section
namespace Sys2Proof.Machine

/-! ### The result of an instruction that completes -/

theorem writesReg_of_exec {i : Instr} {s t : State} {r : Reg} {v : Word} (hi : exec i s = s.finish r v)
    (ht : exec i s = .next t) : s.WritesReg t r v := by
  obtain ⟨q, hq, hw⟩ := finish_spec s r v
  cases (ht.symm.trans hi).trans hq
  exact hw

/-- What the destination holds, where it is not register 0. -/
theorem readReg_of_exec {i : Instr} {s t : State} {r : Reg} {v : Word} (hr : r ≠ 0) (hi : exec i s = s.finish r v)
    (ht : exec i s = .next t) : t.readReg r = v :=
  (writesReg_of_exec hi ht).result.trans (if_neg hr)

/-! ### Products (R110) -/

theorem halves_append (p : BitVec 64) : p.extractLsb' 32 32 ++ p.extractLsb' 0 32 = p :=
  (BitVec.extractLsb'_append_extractLsb'_eq_extractLsb' rfl).trans BitVec.extractLsb'_eq_self

theorem hi_append_lo_of_finishProduct {i : Instr} {s t : State} {p : BitVec 64} (hi : exec i s = s.finishProduct p)
    (ht : exec i s = .next t) : t.hi ++ t.lo = p := by
  cases ht.symm.trans hi
  exact halves_append p

/-- A product of two signed words fits 64 bits. -/
theorem mul64Signed_toInt (a b : Word) : (mul64Signed a b).toInt = sgn a * sgn b := by
  have hlo : -2 ^ 62 ≤ sgn a * sgn b := BitVec.le_toInt_mul_toInt
  have hhi : sgn a * sgn b ≤ 2 ^ 62 := BitVec.toInt_mul_toInt_le
  exact BitVec.toInt_ofInt_eq_self (by decide) (by omega) (by omega)

theorem mul64Unsigned_toNat (a b : Word) : (mul64Unsigned a b).toNat = u a * u b := by
  have hlt : u a * u b < 2 ^ (32 + 32) := Nat.pow_add 2 32 32 ▸ Nat.mul_lt_mul'' a.isLt b.isLt
  rw [mul64Unsigned, trunc64, ← Int.natCast_mul, BitVec.ofInt_natCast, BitVec.toNat_ofNat, Nat.mod_eq_of_lt hlt]

/-! ### Quotients and remainders (R111, R112, R120) -/

theorem divOverflows_iff_sgn {a b : Word} : divOverflows a b = true ↔ sgn a = -2 ^ 31 ∧ sgn b = -1 := by
  have ha : sgn 0x80000000 = -2 ^ 31 := by decide
  have hb : sgn 0xFFFFFFFF = -1 := by decide
  rw [divOverflows_iff, ← ha, ← hb, sgn, sgn, BitVec.toInt_inj, BitVec.toInt_inj]

theorem quotRemSigned_of_overflow {a b : Word} (h : sgn a = -2 ^ 31 ∧ sgn b = -1) (c : Config) :
    quotRemSigned c a b = c.divOvf := if_pos (divOverflows_iff_sgn.mpr h)

theorem quotRemSigned_of_not_overflow {a b : Word} (h : ¬ (sgn a = -2 ^ 31 ∧ sgn b = -1)) (c : Config) :
    quotRemSigned c a b = divRemSigned a b := if_neg (mt divOverflows_iff_sgn.mp h)

theorem sgn_bounds (a : Word) : -2 ^ 31 ≤ sgn a ∧ sgn a < 2 ^ 31 := ⟨a.le_toInt, a.toInt_lt⟩

theorem sgn_trunc32 {n : Int} (hlo : -2 ^ 31 ≤ n) (hhi : n < 2 ^ 31) : sgn (trunc32 n) = n :=
  BitVec.toInt_ofInt_eq_self (by decide) hlo hhi

/-- The quotient fits 32 bits but for the overflow pair: a divisor other than 1 and -1 halves the magnitude. -/
theorem sgn_trunc32_tdiv {a b : Word} (h : ¬ (sgn a = -2 ^ 31 ∧ sgn b = -1)) :
    sgn (trunc32 ((sgn a).tdiv (sgn b))) = (sgn a).tdiv (sgn b) := by
  obtain ⟨halo, hahi⟩ := sgn_bounds a
  by_cases hb : (sgn b).natAbs ≤ 1
  · obtain hb | hb | hb : sgn b = -1 ∨ sgn b = 0 ∨ sgn b = 1 := by omega
    · rw [hb, Int.tdiv_neg, Int.tdiv_one]
      exact sgn_trunc32 (by omega) (by omega)
    · rw [hb, Int.tdiv_zero]
      rfl
    · rw [hb, Int.tdiv_one]
      exact sgn_trunc32 halo hahi
  · have hhalf : ((sgn a).tdiv (sgn b)).natAbs ≤ (sgn a).natAbs / 2 := by
      rw [Int.natAbs_tdiv]
      exact Nat.div_le_div_left (by omega) (by decide)
    exact sgn_trunc32 (by omega) (by omega)

/-- The remainder fits 32 bits: it is smaller than the divisor. -/
theorem sgn_trunc32_tmod (a : Word) {b : Word} (hb : sgn b ≠ 0) :
    sgn (trunc32 ((sgn a).tmod (sgn b))) = (sgn a).tmod (sgn b) := by
  obtain ⟨hblo, hbhi⟩ := sgn_bounds b
  have hlt : ((sgn a).tmod (sgn b)).natAbs < (sgn b).natAbs := by
    rw [Int.natAbs_tmod]
    exact Nat.mod_lt _ (Int.natAbs_pos.mpr hb)
  exact sgn_trunc32 (by omega) (by omega)

theorem tdiv_neg_iff (a b : Int) : a.tdiv b < 0 ↔ ((a < 0 ∧ 0 < b) ∨ (0 < a ∧ b < 0)) ∧ a.tdiv b ≠ 0 := by
  have hsign := Int.sign_tdiv a b
  rw [or_comm, ← mul_neg_iff]
  split at hsign
  · rw [Int.sign_eq_zero_iff_zero.mp hsign]
    simp
  · rw [← Int.sign_mul] at hsign
    have hiff : a.tdiv b < 0 ↔ a * b < 0 := by
      rw [← Int.sign_eq_neg_one_iff_neg, hsign, Int.sign_eq_neg_one_iff_neg]
    exact ⟨fun h => ⟨hiff.mp h, h.ne⟩, fun h => hiff.mpr h.1⟩

theorem tmod_neg_iff (a b : Int) : a.tmod b < 0 ↔ a < 0 ∧ a.tmod b ≠ 0 := by
  refine ⟨fun h => ⟨?_, h.ne⟩, fun ⟨ha, hne⟩ => ?_⟩
  · by_contra ha
    exact absurd (Int.tmod_nonneg b (not_lt.mp ha)) (not_le.mpr h)
  · have hneg : 0 ≤ (-a).tmod b := Int.tmod_nonneg b (by omega)
    rw [Int.neg_tmod] at hneg
    omega

theorem sgn_eq_zero_iff {a : Word} : sgn a = 0 ↔ a = 0 := by
  rw [sgn, ← BitVec.toInt_inj, BitVec.ofNat_eq_ofNat, BitVec.toInt_zero]

/-- HI and LO after a division that neither faults nor overflows, as integers. -/
theorem sgn_hi_lo_of_div {s t : State} {rs rt : Reg} (hb : sgn (s.readReg rt) ≠ 0)
    (hovf : ¬ (sgn (s.readReg rs) = -2 ^ 31 ∧ sgn (s.readReg rt) = -1)) (ht : exec (.div rs rt) s = .next t) :
    sgn t.lo = (sgn (s.readReg rs)).tdiv (sgn (s.readReg rt)) ∧
      sgn t.hi = (sgn (s.readReg rs)).tmod (sgn (s.readReg rt)) := by
  have hrt : s.readReg rt ≠ 0 := mt sgn_eq_zero_iff.mpr hb
  obtain ⟨q, hq, hw⟩ := executes_of_finishDivision_nonzero (i := .div rs rt) (s := s) rfl hrt
  cases ht.symm.trans hq
  rw [quotRemSigned_of_not_overflow hovf, divRemSigned_eq, mul_comm, ← Int.tmod_def] at hw
  rw [hw.lo, hw.hi]
  exact ⟨sgn_trunc32_tdiv hovf, sgn_trunc32_tmod _ hb⟩

/-! ### Bits of an immediate (R85) -/

theorem getLsbD_zextImm (imm : Nat) {k : Nat} (hk : k < 32) :
    (zextImm imm).getLsbD k = (imm.testBit k && decide (k < 16)) := by
  simp [zextImm, unsignedField, BitVec.getLsbD_ofNat, hk, Bool.and_comm]

/-! ### Orders (R140, R143 to R145) -/

theorem sgn_eq_u_sub (a : Word) : sgn a = u a - if a.getLsbD 31 then 2 ^ 32 else 0 := by
  rw [sgn, BitVec.toInt_eq_msb_cond, BitVec.msb_eq_getLsbD_last]
  split
  · simp
  · simp

/-- Bit 31 alike, the readings differ by the same amount. -/
theorem sgn_lt_iff_of_bit31_eq {a b : Word} (h : a.getLsbD 31 = b.getLsbD 31) : sgn a < sgn b ↔ u a < u b := by
  rw [sgn_eq_u_sub a, sgn_eq_u_sub b, h, sub_lt_sub_iff_right, Nat.cast_lt]

/-- A word with bit 31 set is negative and, read as unsigned, at least `2 ^ 31`; one without is neither. -/
theorem orders_of_bit31_ne {a b : Word} (ha : a.getLsbD 31 = true) (hb : b.getLsbD 31 = false) :
    sgn a < sgn b ∧ u b < u a := by
  have hsa := sgn_eq_u_sub a
  have hsb := sgn_eq_u_sub b
  rw [ha, if_pos rfl] at hsa
  rw [hb, if_neg Bool.false_ne_true] at hsb
  have hua : u a < 2 ^ 32 := a.isLt
  obtain ⟨halo, _⟩ := sgn_bounds a
  obtain ⟨_, hbhi⟩ := sgn_bounds b
  omega

theorem sgn_sextImm {imm : Int} (h : fitsSigned16 imm = true) : sgn (sextImm imm) = imm :=
  (BitVec.toInt_signExtend_of_le (by decide)).trans (signedField_toInt h)

theorem exec_slti {imm : Int} (h : fitsSigned16 imm = true) (rt rs : Reg) (s : State) :
    exec (.slti rt rs imm) s = s.finish rt (if sgn (s.readReg rs) < imm then 1 else 0) := by
  rw [exec, execSlti, condWord_lessSigned, sgn_sextImm h]

theorem exec_sltiu (rt rs : Reg) (imm : Int) (s : State) :
    exec (.sltiu rt rs imm) s = s.finish rt (if u (s.readReg rs) < u (sext32 imm) then 1 else 0) := by
  rw [exec, execSltiu, condWord_lessUnsigned]
  rfl

/-! ### The word of `mfhi`, `mflo` (R80) -/

theorem encodedIn_dest {i : Instr} {rd : Reg} (f : BitVec 6) (hwf : i.wf = true) (henc : encode i = wordR 0 0 rd 0 f) :
    EncodedIn i (formatR 0 0 rd 0 f.toNat) (f.setWidth 32) 0xFFFF07FF where
  word := henc.trans (wordR_eq_formatR ..)
  row := henc ▸ and_mask_dest ..
  decodes := decode_encode hwf

/-! ### Branches to a label (R78d, R166) -/

theorem branchOffset_eq_some {index target : Nat} {d : Int} :
    branchOffset index target = some d ↔ fitsSigned16 d = true ∧ d = target - (index + 1) := by
  simp only [branchOffset, Option.ite_none_right_eq_some, Option.some.injEq]
  constructor
  · rintro ⟨hfits, rfl⟩
    exact ⟨hfits, rfl⟩
  · rintro ⟨hfits, rfl⟩
    exact ⟨hfits, rfl⟩

/-- A branch whose condition holds goes to the label its offset was computed for. -/
theorem executes_taken_branch {i : Instr} {s : State} {p : Prop} [Decidable p] {target : Nat} {d : Int}
    (htarget : target < 2 ^ 32) (hd : branchOffset (u s.pc) target = some d) (hi : exec i s = s.branch (decide p) d)
    (hp : p) : Executes i s fun t => u t.pc = target := by
  obtain ⟨hfits, rfl⟩ := branchOffset_eq_some.mp hd
  obtain ⟨t, ht, hj⟩ := executes_of_branch hfits hi
  rw [if_pos hp] at hj
  exact ⟨t, ht, (congrArg u hj.pc).trans (trunc32_add_labelOffset s.pc htarget)⟩

/-! ### Frames of two instructions, one after the other -/

section
variable {s m t : State}

theorem State.SameHiLo.trans (h : s.SameHiLo m) (h' : m.SameHiLo t) : s.SameHiLo t :=
  ⟨h'.hi.trans h.hi, h'.lo.trans h.lo⟩

theorem State.SameMemory.trans (h : s.SameMemory m) (h' : m.SameMemory t) : s.SameMemory t :=
  ⟨fun a => (h'.dmem a).trans (h.dmem a), fun a => (h'.periph a).trans (h.periph a)⟩

theorem State.SameSystem.trans (h : s.SameSystem m) (h' : m.SameSystem t) : s.SameSystem t :=
  ⟨h'.status.trans h.status, h'.controller.trans h.controller, h'.imem.trans h.imem,
    h'.breakpoints.trans h.breakpoints, h'.cfg.trans h.cfg⟩

end

/-! ### A comparison, then a branch on it (R192 to R195) -/

theorem lowerCompare_eq {s : State} {target : Nat} (hfits : fitsSigned16 ((target : Int) - (u s.pc + 2)) = true)
    (a b : Reg) (branch : Int → Instr) : lowerCompare a b branch (u s.pc) target =
    some [.slt 1 a b, branch (target - (u s.pc + 2))] := by
  have hoffset : branchOffset (u s.pc + 1) target = some ((target : Int) - (u s.pc + 2)) :=
    branchOffset_eq_some.mpr ⟨hfits, by omega⟩
  rw [lowerCompare, hoffset]
  rfl

/-- The pair, executed at its index: `$at` holds the comparison's outcome, `pc` is the target when `taken` and the next
index but one when not, and everything else is unchanged. -/
def ComparesThenBranches (is : List Instr) (s : State) (target : Nat) (less taken : Prop) : Prop :=
  ∃ t, execAll is s = .next t ∧ (less → t.readReg 1 = 1) ∧ (¬ less → t.readReg 1 = 0) ∧
    (taken → u t.pc = target) ∧ (¬ taken → t.pc = trunc32 (u s.pc + 2)) ∧ s.SameRegsBut t [1] ∧
    s.SameHiLo t ∧ s.SameMemory t ∧ t.lma = s.lma ∧ s.SameSystem t

section
variable {s : State} {target : Nat} (htarget : target < 2 ^ 32)
  (hfits : fitsSigned16 ((target : Int) - (u s.pc + 2)) = true)
include htarget hfits

/-- `taken` is the branch's condition on the word that the comparison left in `$at`. -/
theorem comparesThenBranches {a b : Reg} {i : Instr} {p : Word → Prop} [DecidablePred p] {taken : Prop}
    (hi : ∀ m, exec i m = m.branch (decide (p (m.readReg 1))) ((target : Int) - (u s.pc + 2)))
    (htaken : taken ↔ p (if sgn (s.readReg a) < sgn (s.readReg b) then 1 else 0)) :
    ComparesThenBranches [.slt 1 a b, i] s target (sgn (s.readReg a) < sgn (s.readReg b)) taken := by
  obtain ⟨m, hm, hw⟩ := executes_of_finish (exec_slt 1 a b s)
  obtain ⟨t, ht, hj⟩ := executes_of_branch hfits (hi m)
  have hat : m.readReg 1 = if sgn (s.readReg a) < sgn (s.readReg b) then 1 else 0 := hw.result
  have hpc (n : Int) : trunc32 (u m.pc + 1 + n) = trunc32 (u s.pc + 2 + n) := by
    rw [hw.pc, add_assoc, trunc32_u_trunc32_add]
    congr 1
    omega
  have hat' : t.readReg 1 = m.readReg 1 := hj.regs 1 nofun
  refine ⟨t, by rw [execAll, hm]; simp only [execAll, ht], ?less, ?notLess, ?taken, ?notTaken,
    fun r hr => (hj.regs r nofun).trans (hw.regs r hr), hw.hilo.trans hj.hilo, hw.memory.trans hj.memory,
    hj.lma.trans hw.lma, hw.system.trans hj.system⟩
  case less => exact fun h => by rw [hat', hat, if_pos h]
  case notLess => exact fun h => by rw [hat', hat, if_neg h]
  case taken =>
    intro h
    rw [hj.pc, hat, if_pos (htaken.mp h), hpc, add_sub_cancel, u, trunc32, BitVec.ofInt_natCast, BitVec.toNat_ofNat,
      Nat.mod_eq_of_lt htarget]
  case notTaken =>
    intro h
    rw [hj.pc, hat, if_neg (mt htaken.mpr h)]
    simpa using hpc 0

theorem comparesThenBranches_bne {a b : Reg} {taken : Prop}
    (htaken : taken ↔ sgn (s.readReg a) < sgn (s.readReg b)) :
    ComparesThenBranches [.slt 1 a b, .bne 1 0 (target - (u s.pc + 2))] s target
      (sgn (s.readReg a) < sgn (s.readReg b)) taken := by
  refine comparesThenBranches htarget hfits (p := (· ≠ 0)) (fun m => exec_bne 1 0 _ m) (htaken.trans ?_)
  split <;> simp [*]

theorem comparesThenBranches_beq {a b : Reg} {taken : Prop}
    (htaken : taken ↔ ¬ sgn (s.readReg a) < sgn (s.readReg b)) :
    ComparesThenBranches [.slt 1 a b, .beq 1 0 (target - (u s.pc + 2))] s target
      (sgn (s.readReg a) < sgn (s.readReg b)) taken := by
  refine comparesThenBranches htarget hfits (p := (· = 0)) (fun m => exec_beq 1 0 _ m) (htaken.trans ?_)
  split <;> simp [*]

end

/-! ### The statements -/

/-- Settles O20: HI and LO are the halves of the 64-bit product, which is exact. -/
theorem productsAreExact : Obligations.ProductsAreExact := by
  refine fun s t rs rt => ⟨fun ht => ?_, fun ht => ?_⟩
  · rw [hi_append_lo_of_finishProduct rfl ht, mul64Signed_toInt]
  · rw [hi_append_lo_of_finishProduct rfl ht, mul64Unsigned_toNat]

/-- Settles O22: the pair of `DIV_OVF` on the overflow pair, `DIVREM`'s results elsewhere. -/
theorem divisionOverflowUsesItsParameter : Obligations.DivisionOverflowUsesItsParameter := by
  intro s rs rt hrt a b
  have hexec := executes_of_finishDivision_nonzero (i := .div rs rt) (s := s) rfl hrt
  by_cases h : a = -2 ^ 31 ∧ b = -1
  · simpa only [if_pos h, quotRemSigned_of_overflow h] using hexec
  · simpa only [if_neg h, quotRemSigned_of_not_overflow h, divRemSigned_eq] using hexec

/-- Settles O24: LO and HI are the truncated quotient and its remainder, with no wrap. -/
theorem signedDivisionIdentity : Obligations.SignedDivisionIdentity := by
  intro s t rs rt a b hb hovf ht
  obtain ⟨hlo, hhi⟩ := sgn_hi_lo_of_div hb hovf ht
  rw [hlo, hhi]
  exact ⟨(Int.tdiv_mul_add_tmod a b).symm, Int.natAbs_tdiv a b, Int.natAbs_tmod a b, tdiv_neg_iff a b, tmod_neg_iff a b⟩

/-- Settles O25: both are one-register words, and each finishes with HI or LO. -/
theorem movesFromHiAndLo : Obligations.MovesFromHiAndLo := fun _ _ =>
  ⟨⟨encodedIn_dest 0x10 rfl rfl, executes_of_finish rfl⟩, encodedIn_dest 0x12 rfl rfl, executes_of_finish rfl⟩

/-- Settles O28: each result is a bitwise operation, and the immediate's upper half is zero. -/
theorem logicWorksBitByBit : Obligations.LogicWorksBitByBit := by
  intro s t d rs rt imm k hd hk a b c
  refine ⟨fun ht => ?and, fun ht => ?or, fun ht => ?xor, fun ht => ?nor, fun ht => ?andi, fun ht => ?ori, fun ht => ?xori⟩
  all_goals rw [readReg_of_exec hd rfl ht]
  case and => exact BitVec.getLsbD_and
  case or => exact BitVec.getLsbD_or
  case xor => exact BitVec.getLsbD_xor
  case nor => rw [BitVec.getLsbD_not, BitVec.getLsbD_or, decide_eq_true hk, Bool.true_and]
  case andi => rw [BitVec.getLsbD_and, getLsbD_zextImm imm hk]
  case ori => rw [BitVec.getLsbD_or, getLsbD_zextImm imm hk]
  case xori => rw [BitVec.getLsbD_xor, getLsbD_zextImm imm hk]

/-- Settles O30: the shifts are the bit-vector shifts, whose bits the library gives. -/
theorem shiftsFillVacatedBits : Obligations.ShiftsFillVacatedBits := by
  intro s t rd rt shamt k hrd hle hk a
  have hshamt := fitsShamt_iff.mpr hle
  refine ⟨fun ht => ?sll, fun ht => ?srl, fun ht => ?sra⟩
  case sll =>
    rw [readReg_of_exec hrd (exec_sll hshamt rd rt s) ht, shiftLeft_eq, BitVec.getLsbD_shiftLeft]
    by_cases h : k < shamt <;> simp [h, hk, a]
  case srl =>
    rw [readReg_of_exec hrd (exec_srl hshamt rd rt s) ht, shiftRightLogical_eq, BitVec.getLsbD_ushiftRight,
      Nat.add_comm shamt]
    split
    · rfl
    · next h => exact BitVec.getLsbD_of_ge _ _ (not_lt.mp h)
  case sra =>
    rw [readReg_of_exec hrd (exec_sra hshamt rd rt s) ht, shiftRightArith_eq, BitVec.getLsbD_sshiftRight,
      Nat.add_comm shamt, BitVec.msb_eq_getLsbD_last]
    simp [hk, a]

/-- Settles O32: both are I-format words with an immediate in range, and each finishes with 1 or 0 by its order. -/
theorem setOnLessThanImmediate : Obligations.SetOnLessThanImmediate := by
  intro s rt rs imm himm a
  exact ⟨⟨encodedIn_signedImm 0x0A himm rfl, executes_of_finish (exec_slti himm rt rs s)⟩,
    encodedIn_signedImm 0x0B himm rfl, executes_of_finish (exec_sltiu rt rs imm s)⟩

/-- Settles O33: the signed reading is the unsigned one less `2 ^ 32` where bit 31 is set. -/
theorem signedAndUnsignedOrderDiffer : Obligations.SignedAndUnsignedOrderDiffer := by
  intro s t q rd rs rt hrd ht hq a b
  rw [readReg_of_exec hrd (exec_slt rd rs rt s) ht, readReg_of_exec hrd (exec_sltu rd rs rt s) hq]
  refine ⟨fun h => if_congr (sgn_lt_iff_of_bit31_eq h) rfl rfl, fun ha hb => ?_, fun ha hb => ?_⟩
  · obtain ⟨hsigned, hunsigned⟩ := orders_of_bit31_ne ha hb
    exact ⟨if_pos hsigned, if_neg hunsigned.not_gt⟩
  · obtain ⟨hsigned, hunsigned⟩ := orders_of_bit31_ne hb ha
    exact ⟨if_neg hsigned.not_gt, if_pos hunsigned⟩

/-- Settles O43: `jal` leaves the next index in register 31, and `jr` goes there. -/
theorem jalThenJrReturns : Obligations.JalThenJrReturns := by
  intro s index
  refine ⟨_, rfl, fun q hq => ⟨_, exec_jr 31 q, ?_, hq⟩⟩
  exact hq.trans (link_spec s (jumpTarget index)).link

/-- Settles O44: the offset is the label's distance from the next index. -/
theorem branchesReachTheirLabel : Obligations.BranchesReachTheirLabel := by
  intro s rs rt target d htarget hd
  exact ⟨(branchOffset_eq_some.mp hd).1, executes_taken_branch htarget hd (exec_beq rs rt d s),
    executes_taken_branch htarget hd (exec_bne rs rt d s)⟩

/-- Settles O60: the pair of each, which branches on `$at` where the order is strict and on its absence where not. -/
theorem compareAndBranchLowering : Obligations.CompareAndBranchLowering := by
  intro s rs rt target htarget hfits d a b does
  exact ⟨⟨lowerCompare_eq hfits rs rt _, comparesThenBranches_bne htarget hfits Iff.rfl⟩,
    ⟨lowerCompare_eq hfits rt rs _, comparesThenBranches_bne htarget hfits Iff.rfl⟩,
    ⟨lowerCompare_eq hfits rt rs _, comparesThenBranches_beq htarget hfits not_lt.symm⟩,
    lowerCompare_eq hfits rs rt _, comparesThenBranches_beq htarget hfits not_lt.symm⟩

end Sys2Proof.Machine
end

-- Proofs of the statements on the debug controller: the executor does not see the host's fields, and what the host's calls
-- do.
section
namespace Sys2Proof.Machine

/-! ### The host's fields, which the executor does not read (R41, R42) -/

/-- The state with another controller state and breakpoint set. -/
def State.withHost (s : State) (c : Controller) (b : List Nat) : State := { s with controller := c, breakpoints := b }

/-- The same of a state that a step has answered: where it stopped the machine, it also halted the controller. -/
def State.rehost (s : State) (c : Controller) (b : List Nat) : State :=
  s.withHost (if s.status = .ready then c else .halted) b

/-- The first answer is a next state, and the second is that state with the host's fields changed. -/
def SameAnswer (c : Controller) (b : List Nat) (answer other : Result) : Prop :=
  ∃ t, answer = .next t ∧ other = .next (t.rehost c b)

section
variable (s : State) (c : Controller) (b : List Nat)

theorem writeReg_withHost (r : Reg) (v : Word) : (s.withHost c b).writeReg r v = (s.writeReg r v).withHost c b := by
  unfold State.writeReg
  split <;> rfl

theorem setDataByte_withHost (a : Nat) (v : Byte) :
    (s.withHost c b).setDataByte a v = (s.setDataByte a v).withHost c b := by
  have hcfg : (s.withHost c b).cfg = s.cfg := rfl
  unfold State.setDataByte
  rw [hcfg]
  split <;> rfl

theorem setDataBytes_withHost (a : Nat) (bs : List Byte) :
    (s.withHost c b).setDataBytes a bs = (s.setDataBytes a bs).withHost c b := by
  induction bs generalizing s a with
  | nil => rfl
  | cons v bs ih => rw [State.setDataBytes, setDataByte_withHost, ih, State.setDataBytes]

variable {s}

theorem rehost_of_ready (h : s.status = .ready) : s.rehost c b = s.withHost c b := by
  rw [State.rehost, if_pos h]

theorem settle_rehost (t : State) : (t.rehost c b).settle = t.settle.rehost c b := by
  have hrehost : (t.rehost c b).settle =
      if t.status = .ready ∧ u t.pc = t.imem.length then (t.rehost c b).terminate else t.rehost c b := rfl
  rw [hrehost, State.settle]
  split <;> rfl

theorem sameAnswer_takeFault (r : Raised) :
    SameAnswer c b (.next (s.takeFault r)) (.next ((s.withHost c b).takeFault r)) := ⟨_, rfl, rfl⟩

theorem dataBytes_withHost (a n : Nat) : (s.withHost c b).dataBytes a n = s.dataBytes a n := by
  induction n generalizing a with
  | zero => rfl
  | succ n ih =>
    rw [State.dataBytes, ih]
    rfl

variable (hs : s.status = .ready)
include hs

theorem sameAnswer_finish (r : Reg) (v : Word) : SameAnswer c b (s.finish r v) ((s.withHost c b).finish r v) := by
  refine ⟨_, rfl, ?_⟩
  rw [State.finish, writeReg_withHost, rehost_of_ready c b (by simp [hs])]
  rfl

theorem sameAnswer_finishHiLo (h l : Word) : SameAnswer c b (s.finishHiLo h l) ((s.withHost c b).finishHiLo h l) := by
  refine ⟨_, rfl, ?_⟩
  rw [rehost_of_ready c b (by simp [hs])]
  rfl

theorem sameAnswer_finishDivision (divisor : Word) (qr : Word × Word) :
    SameAnswer c b (s.finishDivision divisor qr) ((s.withHost c b).finishDivision divisor qr) := by
  unfold State.finishDivision
  split
  · exact sameAnswer_takeFault c b _
  · exact sameAnswer_finishHiLo c b hs _ _

theorem sameAnswer_setPc (target : Word) :
    SameAnswer c b (.next (s.setPc target)) (.next ((s.withHost c b).setPc target)) := by
  refine ⟨_, rfl, ?_⟩
  rw [rehost_of_ready c b (by simp [hs])]
  rfl

theorem sameAnswer_branch (taken : Bool) (offset : Int) :
    SameAnswer c b (s.branch taken offset) ((s.withHost c b).branch taken offset) := by
  cases taken
  · exact sameAnswer_setPc c b hs _
  · exact sameAnswer_setPc c b hs _

theorem sameAnswer_link (v target : Word) : SameAnswer c b (.next ((s.writeReg 31 v).setPc target))
    (.next (((s.withHost c b).writeReg 31 v).setPc target)) := by
  rw [writeReg_withHost]
  exact sameAnswer_setPc c b (by simp [hs]) target

theorem sameAnswer_load (n : Size) (extend : Nat → Word) (rt : Reg) (ea : Word) :
    SameAnswer c b (s.load n extend rt ea) ((s.withHost c b).load n extend rt ea) := by
  cases hc : checkAccess s.cfg ea n with
  | none =>
    rw [State.load, State.load, memRead_ok hc, memRead_ok (s := s.withHost c b) hc, dataBytes_withHost]
    exact sameAnswer_finish (s := s.noteAccess ea n) c b hs rt _
  | some r =>
    rw [load_fault s extend rt hc, load_fault (s.withHost c b) extend rt hc]
    exact sameAnswer_takeFault c b r

theorem sameAnswer_store (n : Size) (v ea : Word) :
    SameAnswer c b (s.store n v ea) ((s.withHost c b).store n v ea) := by
  cases hc : checkAccess s.cfg ea n with
  | none =>
    rw [State.store, State.store, memWrite_ok v hc, memWrite_ok (s := s.withHost c b) v hc, setDataBytes_withHost]
    refine ⟨_, rfl, ?_⟩
    rw [rehost_of_ready c b (by simp [hs])]
    rfl
  | some r =>
    rw [store_fault s v hc, store_fault (s.withHost c b) v hc]
    exact sameAnswer_takeFault c b r

/-- Every instruction, by the shape of its effect. -/
theorem sameAnswer_exec (i : Instr) : SameAnswer c b (exec i s) (exec i (s.withHost c b)) := by
  match i with
  | .add .. | .addu .. | .sub .. | .subu .. | .addi .. | .addiu .. | .mfhi .. | .mflo .. | .and .. | .or .. | .xor ..
  | .nor .. | .andi .. | .ori .. | .xori .. | .sll .. | .srl .. | .sra .. | .slt .. | .sltu .. | .slti .. | .sltiu ..
  | .lui .. => exact sameAnswer_finish c b hs _ _
  | .mult .. | .multu .. => exact sameAnswer_finishHiLo c b hs _ _
  | .div .. | .divu .. => exact sameAnswer_finishDivision c b hs _ _
  | .lw .. | .lh .. | .lb .. => exact sameAnswer_load c b hs _ _ _ _
  | .sw .. | .sh .. | .sb .. => exact sameAnswer_store c b hs _ _ _
  | .beq .. | .bne .. => exact sameAnswer_branch c b hs _ _
  | .j .. | .jr .. => exact sameAnswer_setPc c b hs _
  | .jal .. => exact sameAnswer_link c b hs _ _

end

theorem step_withHost {s t : State} {c : Controller} (hc : c ≠ .unloaded) (b : List Nat) (h : step s = .next t) :
    step (s.withHost c b) = .next (t.rehost c b) := by
  obtain ⟨hready, hloaded⟩ := ready_of_step h
  obtain ⟨hf, _⟩ | ⟨r, hf, _⟩ | ⟨i, hf, _⟩ := fetch_cases s
  · cases h.symm.trans (step_of_ended hready hloaded hf)
    exact step_of_ended (s := s.withHost c b) hready hc hf
  · cases h.symm.trans (step_of_invalid hready hloaded hf)
    exact step_of_invalid (s := s.withHost c b) hready hc hf
  · obtain ⟨m, hm, hm'⟩ := sameAnswer_exec c b hready i
    cases h.symm.trans (step_of_instr hready hloaded hf hm)
    rw [← settle_rehost]
    exact step_of_instr (s := s.withHost c b) hready hc hf hm'

/-! ### `step()` (R229) -/

/-- A machine that accepts calls is loaded and not halted. -/
theorem of_accepts {c : Controller} (h : c.accepts = true) : c ≠ .unloaded ∧ c ≠ .halted := by
  cases c with
  | unloaded | running | halted => cases h
  | loaded | paused | pausedAtBreakpoint => exact ⟨nofun, nofun⟩

theorem afterStep_eq (t : State) :
    t.afterStep = if t.status = .ready then { t with controller := .paused } else t := by
  unfold State.afterStep
  split
  · next h => exact (if_pos h).symm
  · next h => exact (if_neg (by simp [h])).symm
  · next h => exact (if_neg (by simp [h])).symm

section
variable {s : State} (h : s.controller.accepts = false)
include h

theorem stepCall_of_not_accepts : s.stepCall = (s, none) := if_neg (by simp [h])

theorem runCall_of_not_accepts (fuel : Nat) : s.runCall fuel = some (s, none) := if_neg (by simp [h])

theorem setRegister_of_not_accepts (r : HostReg) (v : Int) : s.setRegister r v = s := if_neg (by simp [h])

theorem setMemoryWord_of_not_accepts (a : Word) (v : Int) : s.setMemoryWord a v = s := if_neg (by simp [h])

end

/-! ### `run()` (R227) -/

section
variable {M : Host.Core} {s t : M.State} {n : Nat}

theorem run_succ_of_step (h : M.step s = .next t) : M.run (n + 1) s = M.run n t := by
  rw [Host.Core.run, h]

theorem step_of_run_succ (h : M.run (n + 1) s = .next t) : ∃ m, M.step s = .next m ∧ M.run n m = .next t := by
  rw [Host.Core.run] at h
  split at h
  · next m hm => exact ⟨m, hm, h⟩
  · cases h
  · cases h

end

/-- `n` steps from `s` end in `t`; every state before is ready and at no breakpoint, but the first where `skip` passes over
it. -/
def RunsTo (skip : Bool) (s : State) (n : Nat) (t : State) : Prop :=
  core.run n s = .next t ∧ ∀ m, m < n → ∃ q, core.run m s = .next q ∧ q.status = .ready ∧
    (q.atBreakpoint = false ∨ (m = 0 ∧ skip = true))

/-- How a run that came to `t` in `n` steps ends: paused at a breakpoint, or stopped by the last step. -/
def EndsAs (skip : Bool) (n : Nat) (t : State) (r : State × Tag) : Prop :=
  (t.status = .ready ∧ t.atBreakpoint = true ∧ (n = 0 → skip = false) ∧
      r = ({ t with controller := .pausedAtBreakpoint }, .breakpoint)) ∨
    (t.status ≠ .ready ∧ t.controller = .halted ∧ r = (t, t.status.tag))

theorem runsTo_zero (skip : Bool) (s : State) : RunsTo skip s 0 s := ⟨rfl, fun _ => nofun⟩

/-- A step from a ready state that is not paused at, then a run. -/
theorem runsTo_succ {skip : Bool} {s m t : State} {n : Nat} (hready : s.status = .ready)
    (hpass : s.atBreakpoint = false ∨ skip = true) (hstep : step s = .next m) (h : RunsTo false m n t) :
    RunsTo skip s (n + 1) t := by
  obtain ⟨hrun, hbefore⟩ := h
  refine ⟨(run_succ_of_step (M := core) hstep).trans hrun, fun k hk => ?_⟩
  cases k with
  | zero => exact ⟨s, rfl, hready, hpass.imp_right fun hskip => ⟨rfl, hskip⟩⟩
  | succ k =>
    obtain ⟨q, hq, hqready, hqpass⟩ := hbefore k (Nat.lt_of_succ_lt_succ hk)
    exact ⟨q, (run_succ_of_step (M := core) hstep).trans hq, hqready, .inl (hqpass.resolve_right nofun)⟩

theorem runLoop_spec {fuel : Nat} {skip : Bool} {s : State} {r : State × Tag} (hready : s.status = .ready)
    (h : runLoop fuel skip s = some r) : ∃ n t, n ≤ fuel ∧ RunsTo skip s n t ∧ EndsAs skip n t r := by
  induction fuel generalizing skip s with
  | zero => cases h
  | succ fuel ih =>
    rw [runLoop, if_neg (not_not.mpr hready)] at h
    split at h
    · next hpause =>
      cases h
      obtain ⟨hskip, hbreak⟩ : skip = false ∧ s.atBreakpoint = true := by simpa using hpause
      exact ⟨0, s, Nat.zero_le _, runsTo_zero skip s, .inl ⟨hready, hbreak, fun _ => hskip, rfl⟩⟩
    · next hpass =>
      have hpass : s.atBreakpoint = false ∨ skip = true := by
        cases hskip : skip with
        | false => exact .inl (by simpa [hskip] using hpass)
        | true => exact .inr rfl
      split at h
      · next m hstep =>
        split at h
        · next hm =>
          obtain ⟨n, t, hn, hruns, hends⟩ := ih hm h
          exact ⟨n + 1, t, Nat.succ_le_succ hn, runsTo_succ hready hpass hstep hruns,
            hends.imp_left fun ⟨hstatus, hbreak, _, hr⟩ => ⟨hstatus, hbreak, nofun, hr⟩⟩
        · next hm =>
          cases h
          exact ⟨1, m, Nat.le_add_left .., runsTo_succ hready hpass hstep (runsTo_zero false m),
            .inr ⟨hm, halted_of_step hstep hm, rfl⟩⟩
      · cases h
      · cases h

/-- A run of a ready machine that accepts the call, as executor steps from the state with the controller `Running`. -/
theorem runCall_spec {s : State} {fuel : Nat} {r : State × Option Tag} (haccepts : s.controller.accepts = true)
    (hready : s.status = .ready) (h : s.runCall fuel = some r) :
    ∃ n t r', n ≤ fuel ∧ RunsTo (decide (s.controller = .pausedAtBreakpoint)) { s with controller := .running } n t ∧
      EndsAs (decide (s.controller = .pausedAtBreakpoint)) n t r' ∧ r = (r'.1, some r'.2) := by
  rw [State.runCall, if_pos haccepts] at h
  obtain ⟨r', hr', rfl⟩ := Option.map_eq_some_iff.mp h
  obtain ⟨n, t, hn, hruns, hends⟩ := runLoop_spec (s := { s with controller := .running }) hready hr'
  exact ⟨n, t, r', hn, hruns, hends, rfl⟩

/-! ### Where the host's calls take a program (R257) -/

/-- One executor step. -/
def StepsTo (s t : State) : Prop := step s = .next t

/-- The state without the host's fields: the controller `Paused`, or `Halted` where the machine has stopped, and no
breakpoint. -/
def State.hostless (s : State) : State := s.rehost .paused []

theorem stepsTo_hostless {s t : State} (h : step s = .next t) : StepsTo s.hostless t.hostless := by
  rw [State.hostless, rehost_of_ready _ _ (ready_of_step h).1]
  exact step_withHost (c := .paused) nofun [] h

theorem reaches_of_core_run {s t : State} {n : Nat} (h : core.run n s = .next t) :
    Relation.ReflTransGen StepsTo s.hostless t.hostless := by
  induction n generalizing s with
  | zero =>
    cases h
    exact .refl
  | succ n ih =>
    obtain ⟨m, hm, hrun⟩ := step_of_run_succ h
    exact .head (stepsTo_hostless hm) (ih hrun)

theorem stepsTo_rightUnique : Relator.RightUnique StepsTo := by
  intro s t q ht hq
  cases ht.symm.trans hq
  rfl

/-- A stopped machine reaches no other state. -/
theorem eq_of_reaches_of_stopped {s t : State} (hs : s.status ≠ .ready) (h : Relation.ReflTransGen StepsTo s t) :
    s = t := by
  obtain rfl | ⟨m, hm, _⟩ := h.cases_head
  · rfl
  · exact absurd (ready_of_step hm).1 hs

/-- What every call keeps: a machine that is not ready has its controller halted. -/
def State.HaltedIfStopped (s : State) : Prop := s.status ≠ .ready → s.controller = .halted

theorem ready_of_accepts_of_haltedIfStopped {s : State} (h : s.HaltedIfStopped) (haccepts : s.controller.accepts = true) :
    s.status = .ready := by
  by_contra hstop
  exact (of_accepts haccepts).2 (h hstop)

section
variable {s t : State} (h : s.HaltedIfStopped)
include h

theorem stepCall_reaches :
    s.stepCall.1.HaltedIfStopped ∧ Relation.ReflTransGen StepsTo s.hostless s.stepCall.1.hostless := by
  cases haccepts : s.controller.accepts with
  | false =>
    rw [stepCall_of_not_accepts haccepts]
    exact ⟨h, .refl⟩
  | true =>
    have hready := ready_of_accepts_of_haltedIfStopped h haccepts
    obtain ⟨t, ht, _⟩ := step_answer hready (of_accepts haccepts).1
    have hst := stepsTo_hostless ht
    rw [stepCall_of_step haccepts ht, afterStep_eq]
    by_cases htready : t.status = .ready
    · rw [if_pos htready]
      exact ⟨fun hstop => absurd htready hstop, .single hst⟩
    · rw [if_neg htready]
      exact ⟨halted_of_step ht, .single hst⟩

theorem runCall_reaches {fuel : Nat} {r : State × Option Tag} (hrun : s.runCall fuel = some r) :
    r.1.HaltedIfStopped ∧ Relation.ReflTransGen StepsTo s.hostless r.1.hostless := by
  cases haccepts : s.controller.accepts with
  | false =>
    cases (runCall_of_not_accepts haccepts fuel).symm.trans hrun
    exact ⟨h, .refl⟩
  | true =>
    have hready := ready_of_accepts_of_haltedIfStopped h haccepts
    obtain ⟨n, t, r', _, ⟨hsteps, _⟩, hends, rfl⟩ := runCall_spec haccepts hready hrun
    have hreaches : Relation.ReflTransGen StepsTo s.hostless t.hostless :=
      reaches_of_core_run (s := { s with controller := .running }) hsteps
    obtain ⟨htready, _, _, rfl⟩ | ⟨_, hthalted, rfl⟩ := hends
    · exact ⟨fun hstop => absurd htready hstop, hreaches⟩
    · exact ⟨fun _ => hthalted, hreaches⟩

theorem call_reaches {c : HostCall} (hcall : s.call c = some t) :
    t.HaltedIfStopped ∧ Relation.ReflTransGen StepsTo s.hostless t.hostless := by
  cases c with
  | step =>
    cases hcall
    exact stepCall_reaches h
  | run fuel =>
    obtain ⟨r, hr, rfl⟩ := Option.map_eq_some_iff.mp hcall
    exact runCall_reaches h hr
  | setBreakpoints ns =>
    cases hcall
    exact ⟨h, .refl⟩

theorem calls_reach {cs : List HostCall} (hcalls : s.calls cs = some t) :
    t.HaltedIfStopped ∧ Relation.ReflTransGen StepsTo s.hostless t.hostless := by
  induction cs generalizing s with
  | nil =>
    cases hcalls
    exact ⟨h, .refl⟩
  | cons c cs ih =>
    obtain ⟨m, hm, hrest⟩ := Option.bind_eq_some_iff.mp hcalls
    obtain ⟨hmhalted, hsm⟩ := call_reaches h hm
    obtain ⟨hthalted, hmt⟩ := ih hmhalted hrest
    exact ⟨hthalted, hsm.trans hmt⟩

end

/-- Two stopped machines that a program reaches from one state are the same but for the host's fields. -/
theorem hostless_eq_of_stopped {s t q : State} (ht : Relation.ReflTransGen StepsTo s t.hostless)
    (hq : Relation.ReflTransGen StepsTo s q.hostless) (htstop : t.status ≠ .ready) (hqstop : q.status ≠ .ready) :
    t.hostless = q.hostless := by
  obtain htq | hqt := Relation.ReflTransGen.total_of_right_unique stepsTo_rightUnique ht hq
  · exact eq_of_reaches_of_stopped (s := t.hostless) htstop htq
  · exact (eq_of_reaches_of_stopped (s := q.hostless) hqstop hqt).symm

/-! ### The statements -/

/-- Settles O52: each shape of effect is the same with other host fields, and so are the ways a step can end. -/
theorem executorIgnoresTheHost : Obligations.ExecutorIgnoresTheHost := fun _ _ _ b _ hc hstep => step_withHost hc b hstep

/-- Settles O53: a ready machine that accepts the call has a step, which halts the controller where it stops. -/
theorem stepCallMovesTheController : Obligations.StepCallMovesTheController := by
  refine fun s => ⟨fun haccepts hready => ?_, fun h => ⟨stepCall_of_not_accepts h, runCall_of_not_accepts h,
    setRegister_of_not_accepts h, setMemoryWord_of_not_accepts h⟩⟩
  obtain ⟨t, ht, _⟩ := step_answer hready (of_accepts haccepts).1
  exact ⟨t, ht, by rw [stepCall_of_step haccepts ht, afterStep_eq], halted_of_step ht⟩

/-- Settles O54: by induction on the fuel, a run passes over ready states at no breakpoint until one of its two ends. -/
theorem runStopsAtBreakpointOrEnd : Obligations.RunStopsAtBreakpointOrEnd := by
  intro s fuel r haccepts hready hrun go
  obtain ⟨n, t, r', hn, ⟨hsteps, hbefore⟩, hends, rfl⟩ := runCall_spec haccepts hready hrun
  simp only [EndsAs, decide_eq_true_eq, decide_eq_false_iff_not] at hbefore hends
  refine ⟨n, t, hn, hsteps, hbefore, ?_⟩
  obtain ⟨htready, hbreak, hfirst, rfl⟩ | ⟨htstop, hthalted, rfl⟩ := hends
  · exact .inl ⟨htready, hbreak, hfirst, rfl⟩
  · exact .inr ⟨htstop, hthalted, rfl⟩

/-- Settles O55: a write to a general register, or another HI or LO. -/
theorem setRegisterWritesOneRegister : Obligations.SetRegisterWritesOneRegister := by
  refine fun s v haccepts => ⟨fun r => ?_, if_pos haccepts, if_pos haccepts⟩
  intro t
  have ht : t = s.writeReg r (trunc32 v) := if_pos haccepts
  rw [ht]
  refine ⟨by simp [readReg_writeReg], fun q hq => ?_, ?_, ⟨?_, ?_⟩, ⟨?_, ?_⟩, ?_, ⟨?_, ?_, ?_, ?_, ?_⟩⟩
  · exact readReg_writeReg_other s _ (by simpa using hq)
  all_goals simp

/-- Settles O58: every call goes some executor steps on, with the host's fields left aside, and a stopped machine is the
last state of those steps. -/
theorem finalStateIsTheProgramsOwn : Obligations.FinalStateIsTheProgramsOwn := by
  intro s t q cs ds hready hcs hds htstop hqstop
  have hs : s.HaltedIfStopped := fun hstop => absurd hready hstop
  obtain ⟨hthalted, ht⟩ := calls_reach hs hcs
  obtain ⟨hqhalted, hq⟩ := calls_reach hs hds
  have hsame := hostless_eq_of_stopped ht hq htstop hqstop
  calc { t with breakpoints := q.breakpoints }
    _ = t.hostless.withHost t.controller q.breakpoints := rfl
    _ = q.hostless.withHost q.controller q.breakpoints := by rw [hsame, hthalted htstop, hqhalted hqstop]
    _ = q := rfl

end Sys2Proof.Machine
end
